-- ==== Sys2Proof/Word.lean ====
section
/-! DEFINITION. The word types of the machine (spec 00_scope.md R5, R6, R10). -/

namespace Sys2Proof

/-- A byte, the unit of memory addressing (R10). -/
abbrev Byte := BitVec 8

/-- A word: a general register, `hi`, `lo`, `pc`, an address, an instruction (R5 `XLEN`, `ILEN`; R10). -/
abbrev Word := BitVec 32

/-- The number of a general register, "in the range 0-31" (R20, R62). -/
abbrev RegNo := Fin 32

end Sys2Proof
end

