-- ==== Sys2Proof/Config.lean ====
section
/-! DEFINITION. The parameters the spec leaves open (00_scope.md R5, 92_eei_decisions.md) and the free values.

`ENDIAN`, `OVF_POLICY` and `Mapped` are collected in `Platform`, plain data that the state carries and no step writes, so
that a claim about every state is a claim about every platform (log 1, 2, 3). The result of a division by zero is a
constant with no body (log 8), and so is the choice among several answers of the environment to a trap (log 7). -/

namespace Sys2Proof

/-- `ENDIAN`: the byte order of every 2-byte and 4-byte access, data and fetch alike (R44, D2). -/
inductive Endian where
  | big
  | little
deriving DecidableEq, Repr

/-- `OVF_POLICY`: what `add`, `addi`, `sub` do on signed overflow (R124, D8). -/
inductive OvfPolicy where
  | wrap
  | fault
deriving DecidableEq, Repr

/-- The `kind` of a memory access (R41, R48, R200). -/
inductive AccessKind where
  | fetch
  | load
  | store
deriving DecidableEq, Repr

/-- A set of accesses the platform refuses: those of one of the sizes `sizes` (in bytes) and one of the kinds `kinds`
whose address lies from `first` to `last`, both included. A list of holes can name any set of accesses, so it stands for
any predicate `Mapped(addr, n, kind)` (R48, D17; log 3). -/
structure Hole where
  first : Nat
  last : Nat
  sizes : List Nat
  kinds : List AccessKind
deriving DecidableEq, Repr

/-- The platform's fixed choices (R217, "before the run"). -/
structure Platform where
  /-- `ENDIAN` -/
  endian : Endian
  /-- `OVF_POLICY` -/
  ovf : OvfPolicy
  /-- the accesses for which `Mapped` is false -/
  holes : List Hole
deriving DecidableEq, Repr

/-- `RESET_PC`, OPEN in the spec, a multiple of 4 (R33, R230, D26). DESIGN CHOICE: 0 (log 4, unsafe). -/
def Config.resetPc : Word := 0x00000000#32

/-- The platform after reset. DESIGN CHOICE (log 1, 2, 3, unsafe): `ENDIAN` is OPEN in the spec and is big here;
`OVF_POLICY` is the spec's default `wrap`; `Mapped` is OPEN and is true everywhere here. -/
def Config.resetPlatform : Platform := { endian := .big, ovf := .wrap, holes := [] }

/-- The draws that answer divisions by zero: the `k`-th draw of a run is `Config.draw k`, any 32-bit value
(R106, R107, D9, U2). No body: nothing can be proved of its values (DESIGN CHOICE of the form, log 8, safe). -/
opaque Config.draw : Nat → Word

/-- Which of several answers the environment gives: the `n`-th resumed trap of a run takes answer number `Config.trapChoice n`,
counted round the answers `TRAP_ENV` relates to its code and state (R191, a relation). No body: nothing can be proved of its
values (DESIGN CHOICE of the form, log 7, safe). -/
opaque Config.trapChoice : Nat → Nat

end Sys2Proof
end

