-- ==== Sys2Proof/Syntax.lean ====
section
/-! DEFINITION. The 50 instructions (spec 30_encoding.md R70), their operands in the order of the assembly syntax (R79).

An operand the encoding carries as bits (the immediates `i` and the offset `a`, R62, R67 to R69) is a bit vector; a number
(a shift amount, a trap code: R76, R77) is a `Nat`, with its range in WellFormed.lean. Fields an instruction does not use
(R74) are not operands. -/

namespace Sys2Proof

/-- An instruction of the hardware: one constructor per row of the opcode map (R70). -/
inductive Instr where
  -- 40_arith_logic.md
  | add   (rd rs rt : RegNo)
  | addu  (rd rs rt : RegNo)
  | addi  (rt rs : RegNo) (imm : BitVec 16)
  | addiu (rt rs : RegNo) (imm : BitVec 16)
  | and   (rd rs rt : RegNo)
  | andi  (rt rs : RegNo) (imm : BitVec 16)
  | div   (rs rt : RegNo)
  | divu  (rs rt : RegNo)
  | mult  (rs rt : RegNo)
  | multu (rs rt : RegNo)
  | nor   (rd rs rt : RegNo)
  | or    (rd rs rt : RegNo)
  | ori   (rt rs : RegNo) (imm : BitVec 16)
  | sll   (rd rt : RegNo) (sa : Nat)
  | sllv  (rd rt rs : RegNo)
  | sra   (rd rt : RegNo) (sa : Nat)
  | srav  (rd rt rs : RegNo)
  | srl   (rd rt : RegNo) (sa : Nat)
  | srlv  (rd rt rs : RegNo)
  | sub   (rd rs rt : RegNo)
  | subu  (rd rs rt : RegNo)
  | xor   (rd rs rt : RegNo)
  | xori  (rt rs : RegNo) (imm : BitVec 16)
  -- 41_constant.md
  | lhi   (rt : RegNo) (imm : BitVec 16)
  | llo   (rt : RegNo) (imm : BitVec 16)
  -- 42_comparison.md
  | slt   (rd rs rt : RegNo)
  | sltu  (rd rs rt : RegNo)
  | slti  (rt rs : RegNo) (imm : BitVec 16)
  | sltiu (rt rs : RegNo) (imm : BitVec 16)
  -- 43_branch.md
  | beq   (rs rt : RegNo) (imm : BitVec 16)
  | bgtz  (rs : RegNo) (imm : BitVec 16)
  | blez  (rs : RegNo) (imm : BitVec 16)
  | bne   (rs rt : RegNo) (imm : BitVec 16)
  -- 44_jump.md
  | j     (off : BitVec 26)
  | jal   (off : BitVec 26)
  | jalr  (rs : RegNo)
  | jr    (rs : RegNo)
  -- 45_load.md
  | lb    (rt : RegNo) (imm : BitVec 16) (rs : RegNo)
  | lbu   (rt : RegNo) (imm : BitVec 16) (rs : RegNo)
  | lh    (rt : RegNo) (imm : BitVec 16) (rs : RegNo)
  | lhu   (rt : RegNo) (imm : BitVec 16) (rs : RegNo)
  | lw    (rt : RegNo) (imm : BitVec 16) (rs : RegNo)
  -- 46_store.md
  | sb    (rt : RegNo) (imm : BitVec 16) (rs : RegNo)
  | sh    (rt : RegNo) (imm : BitVec 16) (rs : RegNo)
  | sw    (rt : RegNo) (imm : BitVec 16) (rs : RegNo)
  -- 47_data_movement.md
  | mfhi  (rd : RegNo)
  | mflo  (rd : RegNo)
  | mthi  (rs : RegNo)
  | mtlo  (rs : RegNo)
  -- 48_trap.md
  | trap  (code : Nat)
deriving DecidableEq, Repr

end Sys2Proof
end

