-- ==== Sys2Proof/WellFormed.lean ====
section
/-! DEFINITION. Which instructions have an encoding (spec 30_encoding.md R76, R77, R81; 92_eei_decisions.md D29).

Register numbers and immediates carry their range in their types; the two numeric operands are checked here (log 20). -/

namespace Sys2Proof

/-- A shift amount is a 5-bit number, 0 to 31 (R62 field `h`, R77, R81). -/
def wellFormedShift (sa : Nat) : Bool := decide (sa < 32)

/-- A trap code is a 26-bit number, 0 to 67108863 (R62 field `a`, R76, R81). -/
def wellFormedCode (code : Nat) : Bool := decide (code < 67108864)

/-- The instruction's operands are in the ranges of R81, so that it can be encoded. -/
def Instr.wellFormed : Instr → Bool
  | .add _ _ _ => true
  | .addu _ _ _ => true
  | .addi _ _ _ => true
  | .addiu _ _ _ => true
  | .and _ _ _ => true
  | .andi _ _ _ => true
  | .div _ _ => true
  | .divu _ _ => true
  | .mult _ _ => true
  | .multu _ _ => true
  | .nor _ _ _ => true
  | .or _ _ _ => true
  | .ori _ _ _ => true
  | .sll _ _ sa => wellFormedShift sa
  | .sllv _ _ _ => true
  | .sra _ _ sa => wellFormedShift sa
  | .srav _ _ _ => true
  | .srl _ _ sa => wellFormedShift sa
  | .srlv _ _ _ => true
  | .sub _ _ _ => true
  | .subu _ _ _ => true
  | .xor _ _ _ => true
  | .xori _ _ _ => true
  | .lhi _ _ => true
  | .llo _ _ => true
  | .slt _ _ _ => true
  | .sltu _ _ _ => true
  | .slti _ _ _ => true
  | .sltiu _ _ _ => true
  | .beq _ _ _ => true
  | .bgtz _ _ => true
  | .blez _ _ => true
  | .bne _ _ _ => true
  | .j _ => true
  | .jal _ => true
  | .jalr _ => true
  | .jr _ => true
  | .lb _ _ _ => true
  | .lbu _ _ _ => true
  | .lh _ _ _ => true
  | .lhu _ _ _ => true
  | .lw _ _ _ => true
  | .sb _ _ _ => true
  | .sh _ _ _ => true
  | .sw _ _ _ => true
  | .mfhi _ => true
  | .mflo _ => true
  | .mthi _ => true
  | .mtlo _ => true
  | .trap code => wellFormedCode code

end Sys2Proof
end

