-- ==== Sys2Proof/Decode.lean ====
section
/-! DEFINITION. Byte order, the fields of an instruction word, the decoder and the encoder (spec 30_encoding.md, R42 to R45).

Bit 31 of a word is the leftmost letter of the source's pictures (R61, D1; log 19). -/

namespace Sys2Proof

/-! ### Bytes and wider values (R42 to R44) -/

/-- The number whose base-256 digits are `bs`, the first the most significant. -/
def bytesToNat (bs : List Byte) : Nat := bs.foldl (fun acc b => acc * 256 + b.toNat) 0

/-- The bytes of memory in ascending address order, put most significant first (R42: under `big` the byte at the lowest
address is the most significant, under `little` the least). -/
def mostSignificantFirst (e : Endian) (bs : List Byte) : List Byte :=
  match e with
  | .big => bs
  | .little => bs.reverse

/-- The `8n`-bit value of the `n` bytes `bs`, given in ascending address order (R42). -/
def joinBytes (e : Endian) (n : Nat) (bs : List Byte) : BitVec (8 * n) :=
  BitVec.ofNat (8 * n) (bytesToNat (mostSignificantFirst e bs))

/-- Byte number `k` of a value, number 0 the least significant: `v[8k+7 : 8k]` (R43). -/
def byteOf {m : Nat} (v : BitVec m) (k : Nat) : Byte := v.extractLsb' (8 * k) 8

/-- The `n` bytes that `v` occupies in memory, in ascending address order (R43). -/
def splitBytes (e : Endian) (n : Nat) (v : BitVec (8 * n)) : List Byte :=
  match e with
  | .little => (List.range n).map (byteOf v)
  | .big => ((List.range n).map (byteOf v)).reverse

/-! ### Fields of the instruction word (R62) -/

/-- `op`, bits 31:26. -/
def fieldOp (w : Word) : BitVec 6 := w.extractLsb' 26 6

/-- `f`, bits 5:0. -/
def fieldF (w : Word) : BitVec 6 := w.extractLsb' 0 6

/-- `s`, bits 25:21, a register number. -/
def fieldS (w : Word) : RegNo := (w.extractLsb' 21 5).toFin

/-- `t`, bits 20:16, a register number. -/
def fieldT (w : Word) : RegNo := (w.extractLsb' 16 5).toFin

/-- `d`, bits 15:11, a register number. -/
def fieldD (w : Word) : RegNo := (w.extractLsb' 11 5).toFin

/-- `h`, bits 10:6, a shift amount as a number (R77). -/
def fieldH (w : Word) : Nat := (w.extractLsb' 6 5).toNat

/-- `i`, bits 15:0. -/
def fieldI (w : Word) : BitVec 16 := w.extractLsb' 0 16

/-- `a`, bits 25:0. -/
def fieldA (w : Word) : BitVec 26 := w.extractLsb' 0 26

/-! ### The decoder (R66) -/

/-- Why bytes or a word are not an instruction (R78). -/
inductive DecodeError where
  /-- `op` is one of the 39 unassigned values of R71 -/
  | unassignedOp (op : BitVec 6)
  /-- `op` is 0 and `f` is one of the 38 unassigned values of R72 -/
  | unassignedFunct (f : BitVec 6)
  /-- fewer than four bytes: an instruction is "exactly one word (32 bits)" (R60) -/
  | tooShort (length : Nat)
deriving DecidableEq, Repr

/-- Decoding by `f` when `op` = `000_000`: the function grid (R72), the operands of each syntax (R79). -/
def decodeFunct (w : Word) : Except DecodeError Instr :=
  match fieldF w with
  | 0x00#6 => .ok (.sll (fieldD w) (fieldT w) (fieldH w))
  | 0x02#6 => .ok (.srl (fieldD w) (fieldT w) (fieldH w))
  | 0x03#6 => .ok (.sra (fieldD w) (fieldT w) (fieldH w))
  | 0x04#6 => .ok (.sllv (fieldD w) (fieldT w) (fieldS w))
  | 0x06#6 => .ok (.srlv (fieldD w) (fieldT w) (fieldS w))
  | 0x07#6 => .ok (.srav (fieldD w) (fieldT w) (fieldS w))
  | 0x08#6 => .ok (.jr (fieldS w))
  | 0x09#6 => .ok (.jalr (fieldS w))
  | 0x10#6 => .ok (.mfhi (fieldD w))
  | 0x11#6 => .ok (.mthi (fieldS w))
  | 0x12#6 => .ok (.mflo (fieldD w))
  | 0x13#6 => .ok (.mtlo (fieldS w))
  | 0x18#6 => .ok (.mult (fieldS w) (fieldT w))
  | 0x19#6 => .ok (.multu (fieldS w) (fieldT w))
  | 0x1A#6 => .ok (.div (fieldS w) (fieldT w))
  | 0x1B#6 => .ok (.divu (fieldS w) (fieldT w))
  | 0x20#6 => .ok (.add (fieldD w) (fieldS w) (fieldT w))
  | 0x21#6 => .ok (.addu (fieldD w) (fieldS w) (fieldT w))
  | 0x22#6 => .ok (.sub (fieldD w) (fieldS w) (fieldT w))
  | 0x23#6 => .ok (.subu (fieldD w) (fieldS w) (fieldT w))
  | 0x24#6 => .ok (.and (fieldD w) (fieldS w) (fieldT w))
  | 0x25#6 => .ok (.or (fieldD w) (fieldS w) (fieldT w))
  | 0x26#6 => .ok (.xor (fieldD w) (fieldS w) (fieldT w))
  | 0x27#6 => .ok (.nor (fieldD w) (fieldS w) (fieldT w))
  | 0x2A#6 => .ok (.slt (fieldD w) (fieldS w) (fieldT w))
  | 0x2B#6 => .ok (.sltu (fieldD w) (fieldS w) (fieldT w))
  | f => .error (.unassignedFunct f)

/-- The decoder (R66): by `op` alone (grid R71), or by `f` alone when `op` = `000_000`. Total on every word; fields an
instruction does not use take no part (R74). -/
def decode (w : Word) : Except DecodeError Instr :=
  match fieldOp w with
  | 0x00#6 => decodeFunct w
  | 0x02#6 => .ok (.j (fieldA w))
  | 0x03#6 => .ok (.jal (fieldA w))
  | 0x04#6 => .ok (.beq (fieldS w) (fieldT w) (fieldI w))
  | 0x05#6 => .ok (.bne (fieldS w) (fieldT w) (fieldI w))
  | 0x06#6 => .ok (.blez (fieldS w) (fieldI w))
  | 0x07#6 => .ok (.bgtz (fieldS w) (fieldI w))
  | 0x08#6 => .ok (.addi (fieldT w) (fieldS w) (fieldI w))
  | 0x09#6 => .ok (.addiu (fieldT w) (fieldS w) (fieldI w))
  | 0x0A#6 => .ok (.slti (fieldT w) (fieldS w) (fieldI w))
  | 0x0B#6 => .ok (.sltiu (fieldT w) (fieldS w) (fieldI w))
  | 0x0C#6 => .ok (.andi (fieldT w) (fieldS w) (fieldI w))
  | 0x0D#6 => .ok (.ori (fieldT w) (fieldS w) (fieldI w))
  | 0x0E#6 => .ok (.xori (fieldT w) (fieldS w) (fieldI w))
  | 0x18#6 => .ok (.llo (fieldT w) (fieldI w))
  | 0x19#6 => .ok (.lhi (fieldT w) (fieldI w))
  | 0x1A#6 => .ok (.trap (fieldA w).toNat)
  | 0x20#6 => .ok (.lb (fieldT w) (fieldI w) (fieldS w))
  | 0x21#6 => .ok (.lh (fieldT w) (fieldI w) (fieldS w))
  | 0x23#6 => .ok (.lw (fieldT w) (fieldI w) (fieldS w))
  | 0x24#6 => .ok (.lbu (fieldT w) (fieldI w) (fieldS w))
  | 0x25#6 => .ok (.lhu (fieldT w) (fieldI w) (fieldS w))
  | 0x28#6 => .ok (.sb (fieldT w) (fieldI w) (fieldS w))
  | 0x29#6 => .ok (.sh (fieldT w) (fieldI w) (fieldS w))
  | 0x2B#6 => .ok (.sw (fieldT w) (fieldI w) (fieldS w))
  | op => .error (.unassignedOp op)

/-- Decodes the first word of a list of bytes in ascending address order, and gives the bytes that follow it. -/
def decodeBytes (e : Endian) (bs : List Byte) : Except DecodeError (Instr × List Byte) :=
  if bs.length < 4 then .error (.tooShort bs.length)
  else
    match decode (joinBytes e 4 (bs.take 4)) with
    | .ok i => .ok (i, bs.drop 4)
    | .error err => .error err

/-- The host's entry: the instruction the decoder reads from the bits `w`, bit 0 the least significant bit of the one word
an instruction has (R60, R61). The byte order chosen here is immaterial: the word is laid out and read back in the same one. -/
def decodeTableWord (nbits w : Nat) : Option Instr :=
  match decodeBytes .big (splitBytes .big 4 (BitVec.ofNat 32 (w % 2 ^ nbits))) with
  | .ok (i, _) => some i
  | .error _ => none

/-! ### The encoder (R63 to R65, R70)

Unused fields are written as zeros, as the assembler does (R74, D13; log 16). -/

/-- A 5-bit field holding a register number (R62). -/
def regBits (r : RegNo) : BitVec 5 := BitVec.ofFin r

/-- A Register-encoding word from its fields (R63). -/
def regWord (s t d h : BitVec 5) (f : BitVec 6) : Word := 0x00#6 ++ s ++ t ++ d ++ h ++ f

/-- An Immediate-encoding word from its fields (R64). -/
def immWord (op : BitVec 6) (s t : BitVec 5) (i : BitVec 16) : Word := op ++ s ++ t ++ i

/-- A Jump-encoding word from its fields (R65). -/
def jumpWord (op : BitVec 6) (a : BitVec 26) : Word := op ++ a

/-- The instruction's word (R70). -/
def encode : Instr → Word
  | .add rd rs rt => regWord (regBits rs) (regBits rt) (regBits rd) 0#5 0x20#6
  | .addu rd rs rt => regWord (regBits rs) (regBits rt) (regBits rd) 0#5 0x21#6
  | .addi rt rs imm => immWord 0x08#6 (regBits rs) (regBits rt) imm
  | .addiu rt rs imm => immWord 0x09#6 (regBits rs) (regBits rt) imm
  | .and rd rs rt => regWord (regBits rs) (regBits rt) (regBits rd) 0#5 0x24#6
  | .andi rt rs imm => immWord 0x0C#6 (regBits rs) (regBits rt) imm
  | .div rs rt => regWord (regBits rs) (regBits rt) 0#5 0#5 0x1A#6
  | .divu rs rt => regWord (regBits rs) (regBits rt) 0#5 0#5 0x1B#6
  | .mult rs rt => regWord (regBits rs) (regBits rt) 0#5 0#5 0x18#6
  | .multu rs rt => regWord (regBits rs) (regBits rt) 0#5 0#5 0x19#6
  | .nor rd rs rt => regWord (regBits rs) (regBits rt) (regBits rd) 0#5 0x27#6
  | .or rd rs rt => regWord (regBits rs) (regBits rt) (regBits rd) 0#5 0x25#6
  | .ori rt rs imm => immWord 0x0D#6 (regBits rs) (regBits rt) imm
  | .sll rd rt sa => regWord 0#5 (regBits rt) (regBits rd) (BitVec.ofNat 5 sa) 0x00#6
  | .sllv rd rt rs => regWord (regBits rs) (regBits rt) (regBits rd) 0#5 0x04#6
  | .sra rd rt sa => regWord 0#5 (regBits rt) (regBits rd) (BitVec.ofNat 5 sa) 0x03#6
  | .srav rd rt rs => regWord (regBits rs) (regBits rt) (regBits rd) 0#5 0x07#6
  | .srl rd rt sa => regWord 0#5 (regBits rt) (regBits rd) (BitVec.ofNat 5 sa) 0x02#6
  | .srlv rd rt rs => regWord (regBits rs) (regBits rt) (regBits rd) 0#5 0x06#6
  | .sub rd rs rt => regWord (regBits rs) (regBits rt) (regBits rd) 0#5 0x22#6
  | .subu rd rs rt => regWord (regBits rs) (regBits rt) (regBits rd) 0#5 0x23#6
  | .xor rd rs rt => regWord (regBits rs) (regBits rt) (regBits rd) 0#5 0x26#6
  | .xori rt rs imm => immWord 0x0E#6 (regBits rs) (regBits rt) imm
  | .lhi rt imm => immWord 0x19#6 0#5 (regBits rt) imm
  | .llo rt imm => immWord 0x18#6 0#5 (regBits rt) imm
  | .slt rd rs rt => regWord (regBits rs) (regBits rt) (regBits rd) 0#5 0x2A#6
  | .sltu rd rs rt => regWord (regBits rs) (regBits rt) (regBits rd) 0#5 0x2B#6
  | .slti rt rs imm => immWord 0x0A#6 (regBits rs) (regBits rt) imm
  | .sltiu rt rs imm => immWord 0x0B#6 (regBits rs) (regBits rt) imm
  | .beq rs rt imm => immWord 0x04#6 (regBits rs) (regBits rt) imm
  | .bgtz rs imm => immWord 0x07#6 (regBits rs) 0#5 imm
  | .blez rs imm => immWord 0x06#6 (regBits rs) 0#5 imm
  | .bne rs rt imm => immWord 0x05#6 (regBits rs) (regBits rt) imm
  | .j off => jumpWord 0x02#6 off
  | .jal off => jumpWord 0x03#6 off
  | .jalr rs => regWord (regBits rs) 0#5 0#5 0#5 0x09#6
  | .jr rs => regWord (regBits rs) 0#5 0#5 0#5 0x08#6
  | .lb rt imm rs => immWord 0x20#6 (regBits rs) (regBits rt) imm
  | .lbu rt imm rs => immWord 0x24#6 (regBits rs) (regBits rt) imm
  | .lh rt imm rs => immWord 0x21#6 (regBits rs) (regBits rt) imm
  | .lhu rt imm rs => immWord 0x25#6 (regBits rs) (regBits rt) imm
  | .lw rt imm rs => immWord 0x23#6 (regBits rs) (regBits rt) imm
  | .sb rt imm rs => immWord 0x28#6 (regBits rs) (regBits rt) imm
  | .sh rt imm rs => immWord 0x29#6 (regBits rs) (regBits rt) imm
  | .sw rt imm rs => immWord 0x2B#6 (regBits rs) (regBits rt) imm
  | .mfhi rd => regWord 0#5 0#5 (regBits rd) 0#5 0x10#6
  | .mflo rd => regWord 0#5 0#5 (regBits rd) 0#5 0x12#6
  | .mthi rs => regWord (regBits rs) 0#5 0#5 0#5 0x11#6
  | .mtlo rs => regWord (regBits rs) 0#5 0#5 0#5 0x13#6
  | .trap code => jumpWord 0x1A#6 (BitVec.ofNat 26 code)

/-! ### The opcode map in the form of R70: mask, match, and the used fields of R74 -/

/-- The `(mask, match)` of the instruction's row of R70: `w` is the instruction when `w & mask = match`. -/
def Instr.row : Instr → Word × Word
  | .add _ _ _ => (0xFC00003F#32, 0x00000020#32)
  | .addu _ _ _ => (0xFC00003F#32, 0x00000021#32)
  | .addi _ _ _ => (0xFC000000#32, 0x20000000#32)
  | .addiu _ _ _ => (0xFC000000#32, 0x24000000#32)
  | .and _ _ _ => (0xFC00003F#32, 0x00000024#32)
  | .andi _ _ _ => (0xFC000000#32, 0x30000000#32)
  | .div _ _ => (0xFC00003F#32, 0x0000001A#32)
  | .divu _ _ => (0xFC00003F#32, 0x0000001B#32)
  | .mult _ _ => (0xFC00003F#32, 0x00000018#32)
  | .multu _ _ => (0xFC00003F#32, 0x00000019#32)
  | .nor _ _ _ => (0xFC00003F#32, 0x00000027#32)
  | .or _ _ _ => (0xFC00003F#32, 0x00000025#32)
  | .ori _ _ _ => (0xFC000000#32, 0x34000000#32)
  | .sll _ _ _ => (0xFC00003F#32, 0x00000000#32)
  | .sllv _ _ _ => (0xFC00003F#32, 0x00000004#32)
  | .sra _ _ _ => (0xFC00003F#32, 0x00000003#32)
  | .srav _ _ _ => (0xFC00003F#32, 0x00000007#32)
  | .srl _ _ _ => (0xFC00003F#32, 0x00000002#32)
  | .srlv _ _ _ => (0xFC00003F#32, 0x00000006#32)
  | .sub _ _ _ => (0xFC00003F#32, 0x00000022#32)
  | .subu _ _ _ => (0xFC00003F#32, 0x00000023#32)
  | .xor _ _ _ => (0xFC00003F#32, 0x00000026#32)
  | .xori _ _ _ => (0xFC000000#32, 0x38000000#32)
  | .lhi _ _ => (0xFC000000#32, 0x64000000#32)
  | .llo _ _ => (0xFC000000#32, 0x60000000#32)
  | .slt _ _ _ => (0xFC00003F#32, 0x0000002A#32)
  | .sltu _ _ _ => (0xFC00003F#32, 0x0000002B#32)
  | .slti _ _ _ => (0xFC000000#32, 0x28000000#32)
  | .sltiu _ _ _ => (0xFC000000#32, 0x2C000000#32)
  | .beq _ _ _ => (0xFC000000#32, 0x10000000#32)
  | .bgtz _ _ => (0xFC000000#32, 0x1C000000#32)
  | .blez _ _ => (0xFC000000#32, 0x18000000#32)
  | .bne _ _ _ => (0xFC000000#32, 0x14000000#32)
  | .j _ => (0xFC000000#32, 0x08000000#32)
  | .jal _ => (0xFC000000#32, 0x0C000000#32)
  | .jalr _ => (0xFC00003F#32, 0x00000009#32)
  | .jr _ => (0xFC00003F#32, 0x00000008#32)
  | .lb _ _ _ => (0xFC000000#32, 0x80000000#32)
  | .lbu _ _ _ => (0xFC000000#32, 0x90000000#32)
  | .lh _ _ _ => (0xFC000000#32, 0x84000000#32)
  | .lhu _ _ _ => (0xFC000000#32, 0x94000000#32)
  | .lw _ _ _ => (0xFC000000#32, 0x8C000000#32)
  | .sb _ _ _ => (0xFC000000#32, 0xA0000000#32)
  | .sh _ _ _ => (0xFC000000#32, 0xA4000000#32)
  | .sw _ _ _ => (0xFC000000#32, 0xAC000000#32)
  | .mfhi _ => (0xFC00003F#32, 0x00000010#32)
  | .mflo _ => (0xFC00003F#32, 0x00000012#32)
  | .mthi _ => (0xFC00003F#32, 0x00000011#32)
  | .mtlo _ => (0xFC00003F#32, 0x00000013#32)
  | .trap _ => (0xFC000000#32, 0x68000000#32)

/-- The bits of the word that belong to the opcode, to the function code or to a field the instruction's syntax uses
(R74: the other bits, the unused fields, are ignored). -/
def Instr.usedBits : Instr → Word
  -- ArithLog, ShiftV: all but `h`
  | .add _ _ _ | .addu _ _ _ | .and _ _ _ | .nor _ _ _ | .or _ _ _ => 0xFFFFF83F#32
  | .sub _ _ _ | .subu _ _ _ | .xor _ _ _ | .slt _ _ _ | .sltu _ _ _ => 0xFFFFF83F#32
  | .sllv _ _ _ | .srav _ _ _ | .srlv _ _ _ => 0xFFFFF83F#32
  -- DivMult: all but `d`, `h`
  | .div _ _ | .divu _ _ | .mult _ _ | .multu _ _ => 0xFFFF003F#32
  -- Shift: all but `s`
  | .sll _ _ _ | .sra _ _ _ | .srl _ _ _ => 0xFC1FFFFF#32
  -- JumpR, MoveTo: all but `t`, `d`, `h`
  | .jalr _ | .jr _ | .mthi _ | .mtlo _ => 0xFFE0003F#32
  -- MoveFrom: all but `s`, `t`, `h`
  | .mfhi _ | .mflo _ => 0xFC00F83F#32
  -- LoadI: all but `s`
  | .lhi _ _ | .llo _ _ => 0xFC1FFFFF#32
  -- BranchZ: all but `t`
  | .bgtz _ _ | .blez _ _ => 0xFFE0FFFF#32
  -- ArithLogI, Branch, LoadStore, Jump, Trap: every bit
  | .addi _ _ _ | .addiu _ _ _ | .andi _ _ _ | .ori _ _ _ | .xori _ _ _ | .slti _ _ _ | .sltiu _ _ _ => 0xFFFFFFFF#32
  | .beq _ _ _ | .bne _ _ _ => 0xFFFFFFFF#32
  | .lb _ _ _ | .lbu _ _ _ | .lh _ _ _ | .lhu _ _ _ | .lw _ _ _ | .sb _ _ _ | .sh _ _ _ | .sw _ _ _ => 0xFFFFFFFF#32
  | .j _ | .jal _ | .trap _ => 0xFFFFFFFF#32

end Sys2Proof
end

