-- ==== Sys2Proof/Machine/State.lean ====
section
/-! DEFINITION. The state of the machine (spec 10_state.md R20 to R34), the reasons a step can stop, the state after reset.

`Arch` is the spec's state record (R34), nothing more. `State` adds the model's own plain-data fields: the platform the spec
leaves open, the environment's answers to traps, and the counts of free values used. -/

namespace Sys2Proof.Machine

/-- `MEM`: a partial map from address to byte (R30, R34), as a list of (address, byte) pairs. An address that is not listed
holds no value: nothing has written it and nothing was loaded there (R33, D28; log 6). Canonical form: `Memory.wf`. -/
abbrev Memory := List Host.Cell

/-- The complete architectural state (R34). `regs` holds `x[1]` to `x[31]`, `x[n]` at index `n - 1`; `x[0]` is the constant
0 and has no storage (R21). -/
structure Arch where
  /-- `x[1..31]` (R20) -/
  regs : Vector Word 31
  /-- upper result register (R23) -/
  hi : Word
  /-- lower result register (R23) -/
  lo : Word
  /-- the byte address of the instruction being executed (R24) -/
  pc : Word
  /-- `MEM` (R30) -/
  mem : Memory
deriving DecidableEq, Repr

/-- An answer of the environment to a trap (R191). -/
inductive TrapAnswer where
  /-- `stop`: the run ends -/
  | stop
  /-- `resume(state')`: the run goes on with the state record `a` -/
  | resume (a : Arch)
  /-- `resume(state')` with `state'` the state at the trap and `pc` moved on to `pc + 4`, as "the usual environment" does
  (R206); it says nothing `resume` cannot say, but says it for every state at once -/
  | resumeNext
deriving DecidableEq, Repr

/-- One line of `TRAP_ENV` (R191): a trap with this code, in this state, may be answered so. `none` stands for every code or
every state. -/
structure TrapRule where
  code : Option Nat
  state : Option Arch
  answer : TrapAnswer
deriving DecidableEq, Repr

/-- The state a step reads and writes. -/
structure State extends Arch where
  /-- the model's own: `ENDIAN`, `OVF_POLICY`, `Mapped` of R5; no step writes it (log 1, 2, 3) -/
  platform : Platform
  /-- the model's own: `TRAP_ENV` of R5 and R191, the relation from (code, state) to answers, as the list of its lines; no
  step writes it, so it answers every trap of a run, however many. DESIGN CHOICE (log 7): a code and state that no line
  covers are answered `stop`, the spec's default for an environment that is not supplied -/
  trapEnv : List TrapRule
  /-- the model's own: how many traps the environment has resumed, which tells the choices among several answers apart
  (log 7) -/
  traps : Nat
  /-- the model's own: how many draws divisions by zero have taken (D9; log 8) -/
  draws : Nat
deriving DecidableEq, Repr

/-- What ends a run (R200, R216). In every case the state is the one before the step: exceptions are precise (R203). -/
inductive Fault where
  /-- `Trap(code)`. Raised by `trap` when the environment does not resume it (R190, R191). The spec's own end of a run;
  safe. -/
  | trap (code : Nat)
  /-- `ReservedInstruction(w)`. Raised by the step when the word fetched is not an instruction (R78, D14). Safe: no result
  can be proved of such a step. -/
  | reservedInstruction (w : Word)
  /-- `AddressError(addr, kind)`. Raised by a fetch, load or store whose address is not divisible by its size
  (R41, D15, D16). Safe. -/
  | addressError (addr : Word) (kind : AccessKind)
  /-- `AccessFault(addr, kind)`. Raised by an aligned access the platform does not map (R48, D17). Safe. -/
  | accessFault (addr : Word) (kind : AccessKind)
  /-- `IntegerOverflow`. Raised by `add`, `addi`, `sub` on signed overflow when `OVF_POLICY = fault` (R124, D8). Safe. -/
  | integerOverflow
  /-- The model's own (R33, D28, U7; log 6): a fetch or load that reads a byte nothing has written. Safe: the spec gives
  the byte no value, and no result can be proved of such a step. -/
  | unwrittenByte (addr : Word) (kind : AccessKind)
deriving DecidableEq, Repr

/-- Why the model gives no meaning. -/
inductive Refusal where
  /-- Raised by `exec` for an instruction that has no meaning yet; safe. Every instruction of R70 has its meaning, so no
  arm raises it. -/
  | notModelled (mnemonic : String)
deriving DecidableEq, Repr

/-- What a step or an instruction answers. -/
abbrev Result := Host.Outcome State Fault Refusal

/-- The state after reset (R33, R230). `x[0]` = 0 has no storage; `pc` = `RESET_PC` (log 4). The spec gives `x[1..31]`, `hi`
and `lo` no value: DESIGN CHOICE 0 (log 5, unsafe). Memory: nothing loaded. The rest are the model's own fields at the
spec's defaults where it offers one (log 1, 2, 3, 7, 8). -/
def State.reset : State where
  regs := Vector.replicate 31 0#32
  hi := 0#32
  lo := 0#32
  pc := Config.resetPc
  mem := []
  platform := Config.resetPlatform
  trapEnv := []
  traps := 0
  draws := 0

end Sys2Proof.Machine
end

