-- ==== Sys2Proof/Machine/Ops.lean ====
section
/-! DEFINITION. The named operations over registers and memory, taking an exception and resuming from one (spec 10_state.md,
20_memory.md, 60_exceptions.md). -/

namespace Sys2Proof.Machine

/-! ### General registers (R20, R21) -/

/-- `x[r]`: register 0 reads as 0 (R21, D3; log 10). -/
def State.getReg (s : State) (r : RegNo) : Word :=
  if r = 0 then 0#32 else s.regs[r.val - 1]'(by have := r.isLt; omega)

/-- The register file after `x[r] <- v`; a write to register 0 is discarded (R21, D3; log 10). -/
def updateRegs (regs : Vector Word 31) (r : RegNo) (v : Word) : Vector Word 31 :=
  if r = 0 then regs else regs.set (r.val - 1) v (by have := r.isLt; omega)

/-- `x[r] <- v` (R6, R21). -/
def State.setReg (s : State) (r : RegNo) (v : Word) : State := { s with regs := updateRegs s.regs r v }

/-- `hi <- h; lo <- l` (R23). -/
def State.setHiLo (s : State) (h l : Word) : State := { s with hi := h, lo := l }

/-- `pc <- a` (R6, R24). -/
def State.setPc (s : State) (a : Word) : State := { s with pc := a }

/-- The sequential advance `pc <- pc + 4`, modulo 2^32 (R25, R27, D4; log 11). -/
def State.advance (s : State) : State := s.setPc (s.pc + 4#32)

/-! ### Bytes of memory (R30, R40) -/

/-- The byte at an address, if one was ever loaded or stored there. -/
def Memory.read (m : Memory) (a : Nat) : Option Byte :=
  match m with
  | [] => none
  | (k, b) :: rest => if a = k then some b else Memory.read rest a

/-- Stores one byte. On a list with rising addresses it keeps them rising. -/
def Memory.write (m : Memory) (a : Nat) (v : Byte) : Memory :=
  match m with
  | [] => [(a, v)]
  | (k, b) :: rest =>
    if a < k then (a, v) :: (k, b) :: rest
    else if a = k then (a, v) :: rest
    else (k, b) :: Memory.write rest a v

/-- The addresses listed are strictly rising, none below `lower`, all below 2^32. -/
def Memory.wfFrom (lower : Nat) (m : Memory) : Bool :=
  match m with
  | [] => true
  | (k, _) :: rest => decide (lower ≤ k) && decide (k < 4294967296) && Memory.wfFrom (k + 1) rest

/-- The canonical form: addresses strictly rising and within the 32-bit space (R40). An unlisted address reads as no value,
so no entry can equal it. -/
def Memory.wf (m : Memory) : Bool := Memory.wfFrom 0 m

/-- The `n` bytes at `a`, `a + 1`, ..., in ascending address order, if every one of them holds a value (R40, R42). -/
def Memory.readBytes (m : Memory) (a n : Nat) : Option (List Byte) :=
  match n with
  | 0 => some []
  | n + 1 =>
    match Memory.read m a, Memory.readBytes m (a + 1) n with
    | some b, some bs => some (b :: bs)
    | _, _ => none

/-- Stores bytes at `a`, `a + 1`, ... (R43). -/
def Memory.writeBytes (m : Memory) (a : Nat) (bs : List Byte) : Memory :=
  match bs with
  | [] => m
  | b :: bs => Memory.writeBytes (Memory.write m a b) (a + 1) bs

/-! ### Accesses (R41 to R43, R48) -/

/-- The hole refuses the access of `n` bytes at address `a`. -/
def Hole.refuses (h : Hole) (a n : Nat) (kind : AccessKind) : Bool :=
  decide (h.first ≤ a) && decide (a ≤ h.last) && h.sizes.contains n && h.kinds.contains kind

/-- `Mapped(a, n, kind)` (R48; log 3). -/
def Platform.mapped (p : Platform) (a : Word) (n : Nat) (kind : AccessKind) : Bool :=
  !(p.holes.any fun h => Hole.refuses h a.toNat n kind)

/-- `a` is divisible by `n` (R41). -/
def aligned (a : Word) (n : Nat) : Bool := a.toNat % n == 0

/-- The exception an access meets before it touches memory: alignment first, then the mapping (R41, R42, R43, R204). -/
def accessException (s : State) (a : Word) (n : Nat) (kind : AccessKind) : Option Fault :=
  if !aligned a n then some (.addressError a kind)
  else if !Platform.mapped s.platform a n kind then some (.accessFault a kind)
  else none

/-- `MemRead(a, n)` with `kind` `load` or `fetch` (R42). A byte nothing has written has no value: the read faults
(D28, U7; log 6). -/
def memRead (s : State) (a : Word) (n : Nat) (kind : AccessKind) : Except Fault (BitVec (8 * n)) :=
  match accessException s a n kind with
  | some e => .error e
  | none =>
    match Memory.readBytes s.mem a.toNat n with
    | some bs => .ok (joinBytes s.platform.endian n bs)
    | none => .error (.unwrittenByte a kind)

/-- `MemWrite(a, n, v)` (R43). -/
def memWrite (s : State) (a : Word) (n : Nat) (v : BitVec (8 * n)) : Except Fault State :=
  match accessException s a n .store with
  | some e => .error e
  | none => .ok { s with mem := Memory.writeBytes s.mem a.toNat (splitBytes s.platform.endian n v) }

/-- The instruction fetch `MemRead(pc, 4)` with `kind = fetch` (R25, R49). A misaligned `pc` is met here (R27, D16). -/
def fetch (s : State) : Except Fault Word := memRead s s.pc 4 .fetch

/-! ### Exceptions (R203 to R206) -/

/-- The line of `TRAP_ENV` is about this code and state (R191). -/
def TrapRule.covers (rule : TrapRule) (code : Nat) (a : Arch) : Bool :=
  rule.code.all (· == code) && rule.state.all (· == a)

/-- The state record an answer resumes with, none for `stop` (R191, R206). -/
def TrapAnswer.resumption (answer : TrapAnswer) (a : Arch) : Option Arch :=
  match answer with
  | .stop => none
  | .resume a' => some a'
  | .resumeNext => some { a with pc := a.pc + 4#32 }

/-- What `TRAP_ENV` relates (code, state) to (R191): the state records it may resume with, and `none` where it may stop. -/
def answersTo (env : List TrapRule) (code : Nat) (a : Arch) : List (Option Arch) :=
  (env.filter (TrapRule.covers · code a)).map fun rule => rule.answer.resumption a

/-- One of the answers: `stop` where there is none (no `TRAP_ENV` supplied, R191), the only one, or any of several, which of
them a free value says (log 7). -/
def chooseAnswer (n : Nat) (answers : List (Option Arch)) : Option Arch :=
  match answers with
  | [] => none
  | [answer] => answer
  | answers => answers.getD (Config.trapChoice n % answers.length) none

/-- The environment answers `resume(state')` to a trap: the next step starts from `state'` (R191, R206). The platform and
`TRAP_ENV`, which were fixed before the run (R217), and the draw count stay. -/
def resume (s : State) (a : Arch) : State := { s with toArch := a, traps := s.traps + 1 }

/-- `raise e` (R203, R205): the raising instruction has changed nothing and the environment receives the exception and the
state. No register saves anything and control goes to no address of the machine's own choosing. For `Trap` the environment
answers by its relation on the code and the state (R191; log 7); the other exceptions end the run (D22; log 17). -/
def raise (e : Fault) (s : State) : Result :=
  match e with
  | .trap code =>
    match chooseAnswer s.traps (answersTo s.trapEnv code s.toArch) with
    | some a => .next (resume s a)
    | none => .fault (.trap code)
  | .reservedInstruction w => .fault (.reservedInstruction w)
  | .addressError a kind => .fault (.addressError a kind)
  | .accessFault a kind => .fault (.accessFault a kind)
  | .integerOverflow => .fault .integerOverflow
  | .unwrittenByte a kind => .fault (.unwrittenByte a kind)

/-! ### The shapes of instructions -/

/-- The instruction writes `x[r] <- v` and goes on at `pc + 4` (R25). -/
def finish (s : State) (r : RegNo) (v : Word) : Result := .next (s.setReg r v).advance

/-- The instruction writes `hi` and `lo` and goes on at `pc + 4` (R25). -/
def finishHiLo (s : State) (h l : Word) : Result := .next (s.setHiLo h l).advance

/-- As `finish`, unless the operation overflows and `OVF_POLICY = fault`: then `IntegerOverflow`, and nothing is written
(R100, R124). -/
def finishUnlessOverflow (s : State) (overflows : Bool) (r : RegNo) (v : Word) : Result :=
  if s.platform.ovf = .fault ∧ overflows = true then raise .integerOverflow s else finish s r v

/-- Two fresh draws into `hi` and `lo`, whatever the operands (R106, R107, D9, U2; log 8). -/
def finishDivByZero (s : State) : Result :=
  .next { (s.setHiLo (Config.draw s.draws) (Config.draw (s.draws + 1))).advance with draws := s.draws + 2 }

end Sys2Proof.Machine
end

