-- ==== Sys2Proof/Machine/Flags.lean ====
section
/-! DEFINITION. Overflow and truth values. The machine has no flags or condition codes (spec 10_state.md R28): what other
machines put in flags is here the overflow test of `OVF_POLICY` (R124) and the 1 or 0 a comparison writes (R139). -/

namespace Sys2Proof.Machine

/-- `add_overflows(a, b)` (R124): the signs agree and the sum's differs from them. -/
def addOverflows (a b : Word) : Bool := a.msb == b.msb && (a + b).msb != a.msb

/-- `sub_overflows(a, b)` (R124): the signs differ and the difference's differs from the first operand's. -/
def subOverflows (a b : Word) : Bool := a.msb != b.msb && (a - b).msb != a.msb

/-- The number a comparison assigns: true is 1, false is 0 (R139, D11; log 13). -/
def truthValue (c : Bool) : Word := if c then 1#32 else 0#32

/-- `signed(a) < signed(b)` (R135, D7; log 13). -/
def signedLess (a b : Word) : Bool := decide (a.toInt < b.toInt)

/-- `unsigned(a) < unsigned(b)` (R136, D7; log 13). -/
def unsignedLess (a b : Word) : Bool := decide (a.toNat < b.toNat)

end Sys2Proof.Machine
end

