-- ==== Sys2Proof/Machine/Operands.lean ====
section
/-! DEFINITION. The operand forms: immediates, halves, shift counts, effective addresses, branch and jump targets
(spec 00_scope.md R6 to R8, 20_memory.md R56, 30_encoding.md R67 to R77). -/

namespace Sys2Proof.Machine

/-- `SE(i)`, `sext_32(i)` (R7, R67). -/
def signedImm (imm : BitVec 16) : Word := imm.signExtend 32

/-- `ZE(i)`, `zext_32(i)` (R7, R68). -/
def rawImm (imm : BitVec 16) : Word := imm.setWidth 32

/-- `HH(x)`, the most significant 16 bits (R7). -/
def highHalf (x : Word) : BitVec 16 := x.extractLsb' 16 16

/-- `LH(x)`, the least significant 16 bits (R7). -/
def lowHalf (x : Word) : BitVec 16 := x.extractLsb' 0 16

/-- `LB(x)`, the least significant 8 bits (R7). -/
def lowByte (x : Word) : Byte := x.extractLsb' 0 8

/-- The count of a variable shift: the low five bits of the register (R77, D12; log 14). -/
def shiftCount (x : Word) : Nat := (x.extractLsb' 0 5).toNat

/-- `ea = x[s] + sext_32(i)`, modulo 2^32 (R56, D30; log 18): the only addressing mode. -/
def effectiveAddress (s : State) (base : RegNo) (imm : BitVec 16) : Word := s.getReg base + signedImm imm

/-- `pc + 4 + (sext_32(i) << 2)` (R69, R144), `pc` the address of the branch. -/
def branchTarget (pc : Word) (imm : BitVec 16) : Word := pc + 4#32 + (imm.signExtend 32 <<< 2)

/-- `pc + 4 + (sext_32(a) << 2)` (R69, R150), `pc` the address of the jump. -/
def jumpTarget (pc : Word) (off : BitVec 26) : Word := pc + 4#32 + (off.signExtend 32 <<< 2)

/-- The link value: the address of the instruction after the jump (R26, R151). -/
def linkAddress (s : State) : Word := s.pc + 4#32

/-- The link register `x[31]` (R22). -/
def linkReg : RegNo := 31

end Sys2Proof.Machine
end

