-- ==== Sys2Proof/Machine/ArithLogic.lean ====
section
/-! DEFINITION. The 23 arithmetic and logical instructions (spec 40_arith_logic.md R100 to R124). -/

namespace Sys2Proof.Machine

/-- `add` (R100): `x[d] <- x[s] + x[t]`; overflow by `OVF_POLICY`. -/
def execAdd (rd rs rt : RegNo) (s : State) : Result :=
  finishUnlessOverflow s (addOverflows (s.getReg rs) (s.getReg rt)) rd (s.getReg rs + s.getReg rt)

/-- `addu` (R101): `x[d] <- x[s] + x[t]`, modulo 2^32. -/
def execAddu (rd rs rt : RegNo) (s : State) : Result :=
  finish s rd (s.getReg rs + s.getReg rt)

/-- `addi` (R102): `x[t] <- x[s] + sext_32(i)`; overflow by `OVF_POLICY`. -/
def execAddi (rt rs : RegNo) (imm : BitVec 16) (s : State) : Result :=
  finishUnlessOverflow s (addOverflows (s.getReg rs) (signedImm imm)) rt (s.getReg rs + signedImm imm)

/-- `addiu` (R103, C1): `x[t] <- x[s] + sext_32(i)`, modulo 2^32. -/
def execAddiu (rt rs : RegNo) (imm : BitVec 16) (s : State) : Result :=
  finish s rt (s.getReg rs + signedImm imm)

/-- `and` (R104): `x[d] <- x[s] & x[t]`. -/
def execAnd (rd rs rt : RegNo) (s : State) : Result :=
  finish s rd (s.getReg rs &&& s.getReg rt)

/-- `andi` (R105): `x[t] <- x[s] & zext_32(i)`. -/
def execAndi (rt rs : RegNo) (imm : BitVec 16) (s : State) : Result :=
  finish s rt (s.getReg rs &&& rawImm imm)

/-- The low 32 bits of the quotient truncated toward zero (R8, R106). -/
def quotient (n m : Int) : Word := BitVec.ofInt 32 (n.tdiv m)

/-- The low 32 bits of the remainder `n - q * m`, of the dividend's sign (R8, R106). -/
def remainder (n m : Int) : Word := BitVec.ofInt 32 (n - n.tdiv m * m)

/-- `div` (R106): signed (D7; log 13); `lo` the quotient, `hi` the remainder. `-2^31 / -1` leaves the low 32 bits of the true
quotient (D10; log 15). A zero divisor raises nothing and leaves two draws (D9; log 8). -/
def execDiv (rs rt : RegNo) (s : State) : Result :=
  let n := (s.getReg rs).toInt
  let m := (s.getReg rt).toInt
  if m = 0 then finishDivByZero s else finishHiLo s (remainder n m) (quotient n m)

/-- `divu` (R107): unsigned (D7; log 13); `lo` the floor of the quotient, `hi` the remainder. A zero divisor as in `div`. -/
def execDivu (rs rt : RegNo) (s : State) : Result :=
  let n := (s.getReg rs).toNat
  let m := (s.getReg rt).toNat
  if m = 0 then finishDivByZero s else finishHiLo s (BitVec.ofNat 32 (n % m)) (BitVec.ofNat 32 (n / m))

/-- Bits 63:32 of a 64-bit product (R108). -/
def upperWord (p : BitVec 64) : Word := p.extractLsb' 32 32

/-- Bits 31:0 of a 64-bit product (R108). -/
def lowerWord (p : BitVec 64) : Word := p.extractLsb' 0 32

/-- `mult` (R108): `hi:lo` is the signed 64-bit product (D7; log 13). -/
def execMult (rs rt : RegNo) (s : State) : Result :=
  let p := (s.getReg rs).signExtend 64 * (s.getReg rt).signExtend 64
  finishHiLo s (upperWord p) (lowerWord p)

/-- `multu` (R109): `hi:lo` is the unsigned 64-bit product (D7; log 13). -/
def execMultu (rs rt : RegNo) (s : State) : Result :=
  let p := (s.getReg rs).setWidth 64 * (s.getReg rt).setWidth 64
  finishHiLo s (upperWord p) (lowerWord p)

/-- `nor` (R110): `x[d] <- ~(x[s] | x[t])`. -/
def execNor (rd rs rt : RegNo) (s : State) : Result :=
  finish s rd (~~~(s.getReg rs ||| s.getReg rt))

/-- `or` (R111): `x[d] <- x[s] | x[t]`. -/
def execOr (rd rs rt : RegNo) (s : State) : Result :=
  finish s rd (s.getReg rs ||| s.getReg rt)

/-- `ori` (R112): `x[t] <- x[s] | zext_32(i)`. -/
def execOri (rt rs : RegNo) (imm : BitVec 16) (s : State) : Result :=
  finish s rt (s.getReg rs ||| rawImm imm)

/-- `sll` (R113): `x[d] <- x[t] << h`. -/
def execSll (rd rt : RegNo) (sa : Nat) (s : State) : Result :=
  finish s rd (s.getReg rt <<< sa)

/-- `sllv` (R114): `x[d] <- x[t] << x[s][4:0]`. -/
def execSllv (rd rt rs : RegNo) (s : State) : Result :=
  finish s rd (s.getReg rt <<< shiftCount (s.getReg rs))

/-- `sra` (R115): `x[d] <- x[t] >>a h`. -/
def execSra (rd rt : RegNo) (sa : Nat) (s : State) : Result :=
  finish s rd ((s.getReg rt).sshiftRight sa)

/-- `srav` (R116): `x[d] <- x[t] >>a x[s][4:0]`. -/
def execSrav (rd rt rs : RegNo) (s : State) : Result :=
  finish s rd ((s.getReg rt).sshiftRight (shiftCount (s.getReg rs)))

/-- `srl` (R117): `x[d] <- x[t] >>l h`. -/
def execSrl (rd rt : RegNo) (sa : Nat) (s : State) : Result :=
  finish s rd (s.getReg rt >>> sa)

/-- `srlv` (R118): `x[d] <- x[t] >>l x[s][4:0]`. -/
def execSrlv (rd rt rs : RegNo) (s : State) : Result :=
  finish s rd (s.getReg rt >>> shiftCount (s.getReg rs))

/-- `sub` (R119): `x[d] <- x[s] - x[t]`; overflow by `OVF_POLICY`. -/
def execSub (rd rs rt : RegNo) (s : State) : Result :=
  finishUnlessOverflow s (subOverflows (s.getReg rs) (s.getReg rt)) rd (s.getReg rs - s.getReg rt)

/-- `subu` (R120): `x[d] <- x[s] - x[t]`, modulo 2^32. -/
def execSubu (rd rs rt : RegNo) (s : State) : Result :=
  finish s rd (s.getReg rs - s.getReg rt)

/-- `xor` (R121): `x[d] <- x[s] ^ x[t]`. -/
def execXor (rd rs rt : RegNo) (s : State) : Result :=
  finish s rd (s.getReg rs ^^^ s.getReg rt)

/-- `xori` (R122, C5): `x[t] <- x[s] ^ zext_32(i)`. -/
def execXori (rt rs : RegNo) (imm : BitVec 16) (s : State) : Result :=
  finish s rt (s.getReg rs ^^^ rawImm imm)

end Sys2Proof.Machine
end

