-- ==== Sys2Proof/Machine/Branch.lean ====
section
/-! DEFINITION. The four branch instructions (spec 43_branch.md R140 to R145). -/

namespace Sys2Proof.Machine

/-- The common part of the branches (R144): to the target if the condition holds, else to `pc + 4`. No delay slot (R145, D5;
log 11). -/
def branchIf (s : State) (condition : Bool) (imm : BitVec 16) : Result :=
  if condition then .next (s.setPc (branchTarget s.pc imm)) else .next s.advance

/-- `beq` (R140): branch if `x[s] = x[t]`. -/
def execBeq (rs rt : RegNo) (imm : BitVec 16) (s : State) : Result :=
  branchIf s (decide (s.getReg rs = s.getReg rt)) imm

/-- `bgtz` (R141): branch if `signed(x[s]) > 0`. -/
def execBgtz (rs : RegNo) (imm : BitVec 16) (s : State) : Result :=
  branchIf s (decide ((s.getReg rs).toInt > 0)) imm

/-- `blez` (R142): branch if `signed(x[s]) <= 0`. -/
def execBlez (rs : RegNo) (imm : BitVec 16) (s : State) : Result :=
  branchIf s (decide ((s.getReg rs).toInt ≤ 0)) imm

/-- `bne` (R143): branch if `x[s] != x[t]`. -/
def execBne (rs rt : RegNo) (imm : BitVec 16) (s : State) : Result :=
  branchIf s (decide (s.getReg rs ≠ s.getReg rt)) imm

end Sys2Proof.Machine
end

