-- ==== Sys2Proof/Machine/Comparison.lean ====
section
/-! DEFINITION. The four comparison instructions (spec 42_comparison.md R135 to R139). -/

namespace Sys2Proof.Machine

/-- `slt` (R135): `x[d] <- signed(x[s]) < signed(x[t])`. -/
def execSlt (rd rs rt : RegNo) (s : State) : Result :=
  finish s rd (truthValue (signedLess (s.getReg rs) (s.getReg rt)))

/-- `sltu` (R136): `x[d] <- unsigned(x[s]) < unsigned(x[t])`. -/
def execSltu (rd rs rt : RegNo) (s : State) : Result :=
  finish s rd (truthValue (unsignedLess (s.getReg rs) (s.getReg rt)))

/-- `slti` (R137): `x[t] <- signed(x[s]) < signed(sext_32(i))`. -/
def execSlti (rt rs : RegNo) (imm : BitVec 16) (s : State) : Result :=
  finish s rt (truthValue (signedLess (s.getReg rs) (signedImm imm)))

/-- `sltiu` (R138, C2): `x[t] <- unsigned(x[s]) < unsigned(sext_32(i))`; the immediate is sign-extended first. -/
def execSltiu (rt rs : RegNo) (imm : BitVec 16) (s : State) : Result :=
  finish s rt (truthValue (unsignedLess (s.getReg rs) (signedImm imm)))

end Sys2Proof.Machine
end

