-- ==== Sys2Proof/Machine/Constant.lean ====
section
/-! DEFINITION. The two constant-building instructions (spec 41_constant.md R130 to R132). -/

namespace Sys2Proof.Machine

/-- `lhi` (R130, C11): `x[t] <- i ++ x[t][15:0]`; the low half is kept. -/
def execLhi (rt : RegNo) (imm : BitVec 16) (s : State) : Result :=
  finish s rt (imm ++ lowHalf (s.getReg rt))

/-- `llo` (R131, C11): `x[t] <- x[t][31:16] ++ i`; the high half is kept. -/
def execLlo (rt : RegNo) (imm : BitVec 16) (s : State) : Result :=
  finish s rt (highHalf (s.getReg rt) ++ imm)

end Sys2Proof.Machine
end

