-- ==== Sys2Proof/Machine/Jump.lean ====
section
/-! DEFINITION. The four jump instructions (spec 44_jump.md R150 to R155). -/

namespace Sys2Proof.Machine

/-- `j` (R150, C8): `pc <- pc + 4 + (sext_32(a) << 2)`. -/
def execJ (off : BitVec 26) (s : State) : Result :=
  .next (s.setPc (jumpTarget s.pc off))

/-- `jal` (R151): `x[31] <- pc + 4`, then as `j`. -/
def execJal (off : BitVec 26) (s : State) : Result :=
  .next ((s.setReg linkReg (linkAddress s)).setPc (jumpTarget s.pc off))

/-- `jalr` (R152): `x[31] <- pc + 4`, then `pc <- x[s]`, read after that write: `jalr $31` goes on at `pc + 4` (D6; log 12). -/
def execJalr (rs : RegNo) (s : State) : Result :=
  let linked := s.setReg linkReg (linkAddress s)
  .next (linked.setPc (linked.getReg rs))

/-- `jr` (R153): `pc <- x[s]`, aligned or not: a misaligned target is met at the next fetch (R27). -/
def execJr (rs : RegNo) (s : State) : Result :=
  .next (s.setPc (s.getReg rs))

end Sys2Proof.Machine
end

