-- ==== Sys2Proof/Machine/Load.lean ====
section
/-! DEFINITION. The five load instructions (spec 45_load.md R160 to R165). -/

namespace Sys2Proof.Machine

/-- The common part of the loads (R165): `x[t] <- extension of MemRead(ea, n)`. With `t = 0` the access is still made (R21). -/
def load (s : State) (rt : RegNo) (ea : Word) (n : Nat) (extend : BitVec (8 * n) → Word) : Result :=
  match memRead s ea n .load with
  | .ok v => finish s rt (extend v)
  | .error e => raise e s

/-- `lb` (R160): `x[t] <- sext_32(MemRead(ea, 1))`. -/
def execLb (rt : RegNo) (imm : BitVec 16) (rs : RegNo) (s : State) : Result :=
  load s rt (effectiveAddress s rs imm) 1 fun v => v.signExtend 32

/-- `lbu` (R161): `x[t] <- zext_32(MemRead(ea, 1))`. -/
def execLbu (rt : RegNo) (imm : BitVec 16) (rs : RegNo) (s : State) : Result :=
  load s rt (effectiveAddress s rs imm) 1 fun v => v.setWidth 32

/-- `lh` (R162): `x[t] <- sext_32(MemRead(ea, 2))`. -/
def execLh (rt : RegNo) (imm : BitVec 16) (rs : RegNo) (s : State) : Result :=
  load s rt (effectiveAddress s rs imm) 2 fun v => v.signExtend 32

/-- `lhu` (R163): `x[t] <- zext_32(MemRead(ea, 2))`. -/
def execLhu (rt : RegNo) (imm : BitVec 16) (rs : RegNo) (s : State) : Result :=
  load s rt (effectiveAddress s rs imm) 2 fun v => v.setWidth 32

/-- `lw` (R164): `x[t] <- MemRead(ea, 4)`. -/
def execLw (rt : RegNo) (imm : BitVec 16) (rs : RegNo) (s : State) : Result :=
  load s rt (effectiveAddress s rs imm) 4 fun v => v

end Sys2Proof.Machine
end

