-- ==== Sys2Proof/Machine/Move.lean ====
section
/-! DEFINITION. The four data movement instructions (spec 47_data_movement.md R180 to R184). -/

namespace Sys2Proof.Machine

/-- `mfhi` (R180): `x[d] <- hi`. -/
def execMfhi (rd : RegNo) (s : State) : Result :=
  finish s rd s.hi

/-- `mflo` (R181): `x[d] <- lo`. -/
def execMflo (rd : RegNo) (s : State) : Result :=
  finish s rd s.lo

/-- `mthi` (R182): `hi <- x[s]`; `lo` is unchanged. -/
def execMthi (rs : RegNo) (s : State) : Result :=
  finishHiLo s (s.getReg rs) s.lo

/-- `mtlo` (R183): `lo <- x[s]`; `hi` is unchanged. -/
def execMtlo (rs : RegNo) (s : State) : Result :=
  finishHiLo s s.hi (s.getReg rs)

end Sys2Proof.Machine
end

