-- ==== Sys2Proof/Machine/Store.lean ====
section
/-! DEFINITION. The three store instructions (spec 46_store.md R170 to R173). -/

namespace Sys2Proof.Machine

/-- The common part of the stores (R173): `MemWrite(ea, n, v)`. -/
def store (s : State) (ea : Word) (n : Nat) (v : BitVec (8 * n)) : Result :=
  match memWrite s ea n v with
  | .ok t => .next t.advance
  | .error e => raise e s

/-- `sb` (R170): `MemWrite(ea, 1, x[t][7:0])`. -/
def execSb (rt : RegNo) (imm : BitVec 16) (rs : RegNo) (s : State) : Result :=
  store s (effectiveAddress s rs imm) 1 (lowByte (s.getReg rt))

/-- `sh` (R171): `MemWrite(ea, 2, x[t][15:0])`. -/
def execSh (rt : RegNo) (imm : BitVec 16) (rs : RegNo) (s : State) : Result :=
  store s (effectiveAddress s rs imm) 2 (lowHalf (s.getReg rt))

/-- `sw` (R172): `MemWrite(ea, 4, x[t])`. -/
def execSw (rt : RegNo) (imm : BitVec 16) (rs : RegNo) (s : State) : Result :=
  store s (effectiveAddress s rs imm) 4 (s.getReg rt)

end Sys2Proof.Machine
end

