-- ==== Sys2Proof/Machine/Trap.lean ====
section
/-! DEFINITION. The one system instruction, `trap` (spec 48_trap.md R190, R191). -/

namespace Sys2Proof.Machine

/-- `trap` (R190, R76, C7): raises `Trap(unsigned(a))`, always; the environment resumes or stops the run (R191; log 7). -/
def execTrap (code : Nat) (s : State) : Result :=
  raise (.trap code) s

end Sys2Proof.Machine
end

