-- ==== Sys2Proof/Machine/Step.lean ====
section
/-! DEFINITION. The step of the machine (spec 10_state.md R25) and the loading of one instruction word (R217). -/

namespace Sys2Proof.Machine

/-- One step (R25): fetch at `pc` (which raises on a misaligned or unmapped `pc`), decode, execute. -/
def step (s : State) : Host.Outcome State Fault Refusal :=
  match fetch s with
  | .error e => raise e s
  | .ok w =>
    match decode w with
    | .error _ => raise (.reservedInstruction w) s
    | .ok i => exec i s

/-- The loader's part (R217) for one instruction: its word, the table's low `nbits` bits of `w`, stored at `pc` in the
machine's byte order (R44, R49), so that the next step fetches it, where `pc` is aligned and mapped, as it is after reset
(log 9). -/
def State.withFetchWord (s : State) (nbits w : Nat) : State :=
  { s with mem := Memory.writeBytes s.mem s.pc.toNat (splitBytes s.platform.endian 4 (BitVec.ofNat 32 (w % 2 ^ nbits))) }

end Sys2Proof.Machine
end

