-- ==== Sys2Proof/Safety.lean ====
section
/-! DEFINITION. The words the claims use: what an instruction writes (spec 10_state.md R34), the invariant of the model's
state, and how a run ends (spec 60_exceptions.md R205, R216). -/

namespace Sys2Proof.Machine

/-! ### What an instruction writes (R34) -/

/-- The general register the instruction's rule assigns: its destination field, and `x[31]` for `jal`, `jalr` (R22, R34).
None for `trap`: what its resumption changes is the environment's (R191). -/
def destination : Instr → Option RegNo
  | .add rd _ _ => some rd
  | .addu rd _ _ => some rd
  | .addi rt _ _ => some rt
  | .addiu rt _ _ => some rt
  | .and rd _ _ => some rd
  | .andi rt _ _ => some rt
  | .div _ _ => none
  | .divu _ _ => none
  | .mult _ _ => none
  | .multu _ _ => none
  | .nor rd _ _ => some rd
  | .or rd _ _ => some rd
  | .ori rt _ _ => some rt
  | .sll rd _ _ => some rd
  | .sllv rd _ _ => some rd
  | .sra rd _ _ => some rd
  | .srav rd _ _ => some rd
  | .srl rd _ _ => some rd
  | .srlv rd _ _ => some rd
  | .sub rd _ _ => some rd
  | .subu rd _ _ => some rd
  | .xor rd _ _ => some rd
  | .xori rt _ _ => some rt
  | .lhi rt _ => some rt
  | .llo rt _ => some rt
  | .slt rd _ _ => some rd
  | .sltu rd _ _ => some rd
  | .slti rt _ _ => some rt
  | .sltiu rt _ _ => some rt
  | .beq _ _ _ => none
  | .bgtz _ _ => none
  | .blez _ _ => none
  | .bne _ _ _ => none
  | .j _ => none
  | .jal _ => some linkReg
  | .jalr _ => some linkReg
  | .jr _ => none
  | .lb rt _ _ => some rt
  | .lbu rt _ _ => some rt
  | .lh rt _ _ => some rt
  | .lhu rt _ _ => some rt
  | .lw rt _ _ => some rt
  | .sb _ _ _ => none
  | .sh _ _ _ => none
  | .sw _ _ _ => none
  | .mfhi rd => some rd
  | .mflo rd => some rd
  | .mthi _ => none
  | .mtlo _ => none
  | .trap _ => none

/-- The instruction is `trap`, whose resumption is the environment's own (R191). -/
def isTrap : Instr → Bool
  | .trap _ => true
  | _ => false

/-- The instruction writes `hi` (R23). -/
def writesHi : Instr → Bool
  | .div _ _ | .divu _ _ | .mult _ _ | .multu _ _ | .mthi _ => true
  | _ => false

/-- The instruction writes `lo` (R23). -/
def writesLo : Instr → Bool
  | .div _ _ | .divu _ _ | .mult _ _ | .multu _ _ | .mtlo _ => true
  | _ => false

/-- The instruction is a division, the only kind that may take draws (R106, R107). -/
def isDivision : Instr → Bool
  | .div _ _ | .divu _ _ => true
  | _ => false

/-- The instruction's rule writes `pc` itself: the branches, the jumps (R25), and `trap` when it is resumed (R191). -/
def transfersControl : Instr → Bool
  | .beq _ _ _ | .bgtz _ _ | .blez _ _ | .bne _ _ _ => true
  | .j _ | .jal _ | .jalr _ | .jr _ => true
  | .trap _ => true
  | _ => false

/-- The instruction takes the new `pc` from a register (R27): `jr`, `jalr`. -/
def jumpsToRegister : Instr → Bool
  | .jalr _ | .jr _ => true
  | _ => false

/-- The bytes a store writes, for the state before it: the effective address and the number of bytes (R56, R173). -/
def storedBytes (s : State) : Instr → Option (Word × Nat)
  | .sb _ imm rs => some (effectiveAddress s rs imm, 1)
  | .sh _ imm rs => some (effectiveAddress s rs imm, 2)
  | .sw _ imm rs => some (effectiveAddress s rs imm, 4)
  | _ => none

/-- `a` is one of the `n` bytes at `ea` (R40). -/
def inBytes (a : Nat) (ea : Word) (n : Nat) : Prop := ea.toNat ≤ a ∧ a < ea.toNat + n

/-! ### The unassigned encodings (R71, R72, R78) -/

/-- The 39 unassigned values of `op` (R71). -/
def unassignedOps : List (BitVec 6) :=
  [0x01, 0x0F, 0x10, 0x11, 0x12, 0x13, 0x14, 0x15, 0x16, 0x17, 0x1B, 0x1C, 0x1D, 0x1E, 0x1F, 0x22, 0x26, 0x27, 0x2A,
   0x2C, 0x2D, 0x2E, 0x2F, 0x30, 0x31, 0x32, 0x33, 0x34, 0x35, 0x36, 0x37, 0x38, 0x39, 0x3A, 0x3B, 0x3C, 0x3D, 0x3E, 0x3F]

/-- The 38 unassigned values of `f` (R72). -/
def unassignedFuncts : List (BitVec 6) :=
  [0x01, 0x05, 0x0A, 0x0B, 0x0C, 0x0D, 0x0E, 0x0F, 0x14, 0x15, 0x16, 0x17, 0x1C, 0x1D, 0x1E, 0x1F, 0x28, 0x29,
   0x2C, 0x2D, 0x2E, 0x2F, 0x30, 0x31, 0x32, 0x33, 0x34, 0x35, 0x36, 0x37, 0x38, 0x39, 0x3A, 0x3B, 0x3C, 0x3D, 0x3E, 0x3F]

/-- The word is not an instruction (R78). -/
def unassignedWord (w : Word) : Prop :=
  w.extractLsb' 26 6 ∈ unassignedOps ∨ (w.extractLsb' 26 6 = 0#6 ∧ w.extractLsb' 0 6 ∈ unassignedFuncts)

/-! ### What an instruction can raise (R202) -/

/-- The rows of R202 for the instruction itself, once fetched and decoded. `unwrittenByte` is the model's own addition for
loads (log 6). -/
def canRaise (s : State) (i : Instr) (e : Fault) : Prop :=
  match i with
  | .add _ _ _ | .addi _ _ _ | .sub _ _ _ => s.platform.ovf = .fault ∧ e = .integerOverflow
  | .lb _ imm rs | .lbu _ imm rs =>
    let ea := effectiveAddress s rs imm
    e = .accessFault ea .load ∨ e = .unwrittenByte ea .load
  | .lh _ imm rs | .lhu _ imm rs | .lw _ imm rs =>
    let ea := effectiveAddress s rs imm
    e = .addressError ea .load ∨ e = .accessFault ea .load ∨ e = .unwrittenByte ea .load
  | .sb _ imm rs => e = .accessFault (effectiveAddress s rs imm) .store
  | .sh _ imm rs | .sw _ imm rs =>
    let ea := effectiveAddress s rs imm
    e = .addressError ea .store ∨ e = .accessFault ea .store
  | .trap code => e = .trap code
  | _ => False

/-- The 38 instructions that raise nothing once fetched and decoded (R202, last row). -/
def neverRaises : Instr → Bool
  | .add _ _ _ | .addi _ _ _ | .sub _ _ _ => false
  | .lb _ _ _ | .lbu _ _ _ | .lh _ _ _ | .lhu _ _ _ | .lw _ _ _ => false
  | .sb _ _ _ | .sh _ _ _ | .sw _ _ _ => false
  | .trap _ => false
  | _ => true

/-! ### What the environment may answer to a trap (R191) -/

/-- `TRAP_ENV` relates (code, state) to the answer `o`: to resuming with the record it holds, or, for `none`, to `stop`. -/
def mayAnswer (env : List TrapRule) (code : Nat) (a : Arch) (o : Option Arch) : Prop :=
  ∃ rule ∈ env, (rule.code = none ∨ rule.code = some code) ∧ (rule.state = none ∨ rule.state = some a) ∧
    match rule.answer with
    | .stop => o = none
    | .resume a' => o = some a'
    | .resumeNext => o = some { a with pc := a.pc + 4#32 }

/-! ### The invariant of the state -/

/-- The environment resumes with a memory in canonical form. -/
def TrapAnswer.wf : TrapAnswer → Bool
  | .stop => true
  | .resume a => Memory.wf a.mem
  | .resumeNext => true

/-- Memory is in canonical form, now and in every state the environment will resume with. -/
def State.wf (s : State) : Bool := Memory.wf s.mem && s.trapEnv.all fun rule => rule.answer.wf

/-! ### How a run ends (R205, R216) -/

/-- The exceptions that are faults: every one but `Trap`. "The faulted state is not a final state of a correct program"
(R205). -/
def Fault.isError : Fault → Bool
  | .trap _ => false
  | .reservedInstruction _ => true
  | .addressError _ _ => true
  | .accessFault _ _ => true
  | .integerOverflow => true
  | .unwrittenByte _ _ => true

/-- At most `k` steps from `s`: the last state reached, and the exception that ended the run there, if one did. "The final
state is the state at that step, `pc` included" (R216). -/
def runFrom (k : Nat) (s : State) : State × Option Fault :=
  match k with
  | 0 => (s, none)
  | k + 1 =>
    match step s with
    | .next t => runFrom k t
    | .fault e => (s, some e)
    | .refused _ => (s, none)

/-- The run from `s` meets no fault in its first `k` steps (a `Trap` that ends it is no fault). -/
def safeFor (k : Nat) (s : State) : Prop := ∀ e, (runFrom k s).2 = some e → e.isError = false

end Sys2Proof.Machine
end

