-- ==== Sys2Proof/Certificates/Slice0/Obligations.lean ====
section
/-! DEFINITION. The statements for the provers. "D<n>" is a decision of the spec (92_eei_decisions.md), "log <n>" a row of
notes/assumptions/. Reading register 0 as 0 (D3) and the advance `pc + 4` (D4) are decisions of the spec throughout.

The per-instruction statements say that the instruction completes and what it puts where it writes. The statements
`OnlyTheDestinationRegisterChanges`, `OnlySixInstructionsWriteHiLo`, `OnlyStoredBytesChange`, `OtherInstructionsAdvancePc`
and `ModelFieldsChangeOnlyWhereSaid` are the frames of every instruction. A destination of register 0 is covered there:
no register changes. -/

open Sys2Proof Sys2Proof.Machine

/-! ### Encoding -/

/-- Words written out from the encodings of R63 to R65 and R70 decode to the instruction they stand for: one or more of each
format, with unused fields nonzero in the last two (R74). -/
def Obligations.ExampleWordsDecode : Prop :=
  decode 0x00221820#32 = .ok (.add 3 1 2) ∧ decode 0x2022FFFF#32 = .ok (.addi 2 1 0xFFFF#16) ∧
  decode 0x00021900#32 = .ok (.sll 3 2 4) ∧ decode 0x00221804#32 = .ok (.sllv 3 2 1) ∧
  decode 0x64011234#32 = .ok (.lhi 1 0x1234#16) ∧ decode 0x0022182A#32 = .ok (.slt 3 1 2) ∧
  decode 0x1C20FFFD#32 = .ok (.bgtz 1 0xFFFD#16) ∧ decode 0x0BFFFFFF#32 = .ok (.j 0x3FFFFFF#26) ∧
  decode 0x8C220008#32 = .ok (.lw 2 0x0008#16 1) ∧ decode 0xA422FFFE#32 = .ok (.sh 2 0xFFFE#16 1) ∧
  decode 0x00001810#32 = .ok (.mfhi 3) ∧ decode 0x6BFFFFFF#32 = .ok (.trap 67108863) ∧
  decode 0x00A03809#32 = .ok (.jalr 5) ∧ decode 0x67E11234#32 = .ok (.lhi 1 0x1234#16)

/-- Decoding the word of any well-formed instruction gives the instruction back, with every operand. -/
def Obligations.DecodeOfEncodeIsTheInstruction : Prop :=
  ∀ i : Instr, i.wellFormed = true → decode (encode i) = .ok i

/-- Every instruction the decoder produces has its operands in the ranges of R81. -/
def Obligations.DecodedInstructionsAreWellFormed : Prop :=
  ∀ (w : Word) (i : Instr), decode w = .ok i → i.wellFormed = true

/-- R70: a word is an instruction of a row exactly when its bits under the row's mask are the row's match value. -/
def Obligations.WordIsInstructionWhenMaskMatches : Prop :=
  ∀ (w : Word) (j : Instr),
    (w &&& j.row.1 = j.row.2) ↔ ∃ i, decode w = .ok i ∧ i.row = j.row

/-- R74, D13: fields an instruction does not use take no part in decoding, and the encoder writes zeros there. -/
def Obligations.UnusedFieldsAreIgnored : Prop :=
  ∀ (w : Word) (i : Instr), decode w = .ok i →
    encode i = w &&& i.usedBits ∧ ∀ w' : Word, w' &&& i.usedBits = w &&& i.usedBits → decode w' = .ok i

/-- The words of the three formats built from their fields are the shifts of R63 to R65. -/
def Obligations.FieldsStandAtTheirBits : Prop :=
  (∀ (s t d h : BitVec 5) (f : BitVec 6), regWord s t d h f =
    (s.setWidth 32 <<< 21) ||| (t.setWidth 32 <<< 16) ||| (d.setWidth 32 <<< 11) ||| (h.setWidth 32 <<< 6) ||| f.setWidth 32) ∧
  (∀ (op : BitVec 6) (s t : BitVec 5) (i : BitVec 16), immWord op s t i =
    (op.setWidth 32 <<< 26) ||| (s.setWidth 32 <<< 21) ||| (t.setWidth 32 <<< 16) ||| i.setWidth 32) ∧
  (∀ (op : BitVec 6) (a : BitVec 26), jumpWord op a = (op.setWidth 32 <<< 26) ||| a.setWidth 32)

/-- A word with an unassigned `op` or `f` (R71, R72) is no instruction, every other word is one, and executing an unassigned
word raises `ReservedInstruction` (the spec's decision D14). -/
def Obligations.UnassignedWordsRaiseReservedInstruction : Prop :=
  (∀ w : Word, unassignedWord w ↔ ¬ ∃ i, decode w = .ok i) ∧
  ∀ (s : State) (w : Word), fetch s = .ok w → unassignedWord w → step s = .fault (.reservedInstruction w)

/-! ### The step -/

/-- R25: when the four bytes at an aligned, mapped `pc` decode to an instruction, the step is that instruction's execution
and nothing else (its advance of `pc` is part of `exec`). -/
def Obligations.StepRunsTheDecodedInstruction : Prop :=
  ∀ (s : State) (bs : List Byte) (i : Instr),
    s.pc.toNat % 4 = 0 → Platform.mapped s.platform s.pc 4 .fetch = true →
    Memory.readBytes s.mem s.pc.toNat 4 = some bs → decode (joinBytes s.platform.endian 4 bs) = .ok i →
    step s = exec i s

/-- What a fetch raises, in the order of R204 (decisions D16, D17, D23): a misaligned `pc`, an unmapped `pc`; then, the
model's own choice (log 6), a byte at `pc` that nothing has written. -/
def Obligations.FetchRaisesInOrder : Prop :=
  ∀ s : State,
    (s.pc.toNat % 4 ≠ 0 → step s = .fault (.addressError s.pc .fetch)) ∧
    (s.pc.toNat % 4 = 0 → Platform.mapped s.platform s.pc 4 .fetch = false → step s = .fault (.accessFault s.pc .fetch)) ∧
    (s.pc.toNat % 4 = 0 → Platform.mapped s.platform s.pc 4 .fetch = true → Memory.readBytes s.mem s.pc.toNat 4 = none →
      step s = .fault (.unwrittenByte s.pc .fetch))

/-- The word placed by `withFetchWord` is the word fetched, under either byte order, and nothing but memory changes. -/
def Obligations.PlacedWordIsFetched : Prop :=
  ∀ (s : State) (w : Word), s.pc.toNat % 4 = 0 → Platform.mapped s.platform s.pc 4 .fetch = true →
    fetch (s.withFetchWord 32 w.toNat) = .ok w ∧
    { s.withFetchWord 32 w.toNat with mem := s.mem } = s

/-- A word stored is the word a later fetch at that address decodes, with nothing in between (R54, D20). -/
def Obligations.StoredWordIsFetched : Prop :=
  ∀ (s t : State) (rt rs : RegNo) (imm : BitVec 16), exec (.sw rt imm rs) s = .next t →
    Platform.mapped s.platform (s.getReg rs + imm.signExtend 32) 4 .fetch = true →
    fetch (t.setPc (s.getReg rs + imm.signExtend 32)) = .ok (s.getReg rt)

/-- No instruction and no step is refused: every one of the 50 has its meaning in every state (R3, R70). -/
def Obligations.NoInstructionIsRefused : Prop :=
  (∀ (i : Instr) (s : State) (r : Refusal), exec i s ≠ .refused r) ∧ ∀ (s : State) (r : Refusal), step s ≠ .refused r

/-! ### Registers and memory accesses -/

/-- Register 0 reads as 0 and a write to it changes nothing (the spec's decision D3); any other register reads as written,
and a write leaves every other register alone. -/
def Obligations.RegistersReadAsWritten : Prop :=
  ∀ (s : State) (r q : RegNo) (v : Word), s.getReg 0 = 0#32 ∧ s.setReg 0 v = s ∧
    (r ≠ 0 → (s.setReg r v).getReg r = v) ∧ (q ≠ r → (s.setReg r v).getReg q = s.getReg q)

/-- R42: `MemRead` for the three sizes, both kinds and both byte orders, with its two exceptions in order (decisions D2, D15 to
D17 of the spec), where the bytes read hold values. -/
def Obligations.MemReadAnswersInByteOrder : Prop :=
  ∀ (s : State) (a : Word) (kind : AccessKind), kind ≠ .store →
    (∀ n, n = 1 ∨ n = 2 ∨ n = 4 → a.toNat % n ≠ 0 → memRead s a n kind = .error (.addressError a kind)) ∧
    (∀ n, n = 1 ∨ n = 2 ∨ n = 4 → a.toNat % n = 0 → Platform.mapped s.platform a n kind = false →
      memRead s a n kind = .error (.accessFault a kind)) ∧
    (∀ b0 : Byte, Platform.mapped s.platform a 1 kind = true → Memory.read s.mem a.toNat = some b0 →
      memRead s a 1 kind = .ok b0) ∧
    (∀ b0 b1 : Byte, a.toNat % 2 = 0 → Platform.mapped s.platform a 2 kind = true →
      Memory.read s.mem a.toNat = some b0 → Memory.read s.mem (a.toNat + 1) = some b1 →
      (s.platform.endian = .big → memRead s a 2 kind = .ok (b0 ++ b1)) ∧
      (s.platform.endian = .little → memRead s a 2 kind = .ok (b1 ++ b0))) ∧
    (∀ b0 b1 b2 b3 : Byte, a.toNat % 4 = 0 → Platform.mapped s.platform a 4 kind = true →
      Memory.read s.mem a.toNat = some b0 → Memory.read s.mem (a.toNat + 1) = some b1 →
      Memory.read s.mem (a.toNat + 2) = some b2 → Memory.read s.mem (a.toNat + 3) = some b3 →
      (s.platform.endian = .big → memRead s a 4 kind = .ok (b0 ++ b1 ++ b2 ++ b3)) ∧
      (s.platform.endian = .little → memRead s a 4 kind = .ok (b3 ++ b2 ++ b1 ++ b0)))

/-- R43: `MemWrite` for the three sizes and both byte orders: its two exceptions in order; else each of the `n` bytes gets
its part of the value, and no other byte and no register changes (decisions D2, D15, D17 of the
spec). -/
def Obligations.MemWriteStoresExactlyItsBytes : Prop :=
  ∀ (s : State) (a : Word) (n : Nat) (v : BitVec (8 * n)), n = 1 ∨ n = 2 ∨ n = 4 →
    (a.toNat % n ≠ 0 → memWrite s a n v = .error (.addressError a .store)) ∧
    (a.toNat % n = 0 → Platform.mapped s.platform a n .store = false → memWrite s a n v = .error (.accessFault a .store)) ∧
    (a.toNat % n = 0 → Platform.mapped s.platform a n .store = true →
      ∃ t, memWrite s a n v = .ok t ∧ { t with mem := s.mem } = s ∧
        (∀ k < n, s.platform.endian = .big →
          Memory.read t.mem (a.toNat + k) = some (v.extractLsb' (8 * (n - k - 1)) 8)) ∧
        (∀ k < n, s.platform.endian = .little → Memory.read t.mem (a.toNat + k) = some (v.extractLsb' (8 * k) 8)) ∧
        (∀ b : Nat, ¬ inBytes b a n → Memory.read t.mem b = Memory.read s.mem b))

/-- What narrower reads see after a word is stored: the table of R45, for both byte orders. -/
def Obligations.NarrowReadsAfterWordWrite : Prop :=
  ∀ (s t : State) (a : Word) (v : BitVec 32), memWrite s a 4 v = .ok t →
    (∀ (k : Nat), k < 4 → Platform.mapped s.platform (a + BitVec.ofNat 32 k) 1 .load = true →
      (s.platform.endian = .big →
        memRead t (a + BitVec.ofNat 32 k) 1 .load = .ok (v.extractLsb' (24 - 8 * k) 8)) ∧
      (s.platform.endian = .little →
        memRead t (a + BitVec.ofNat 32 k) 1 .load = .ok (v.extractLsb' (8 * k) 8))) ∧
    (Platform.mapped s.platform a 2 .load = true →
      (s.platform.endian = .big → memRead t a 2 .load = .ok (v.extractLsb' 16 16)) ∧
      (s.platform.endian = .little → memRead t a 2 .load = .ok (v.extractLsb' 0 16))) ∧
    (Platform.mapped s.platform (a + 2#32) 2 .load = true →
      (s.platform.endian = .big → memRead t (a + 2#32) 2 .load = .ok (v.extractLsb' 0 16)) ∧
      (s.platform.endian = .little → memRead t (a + 2#32) 2 .load = .ok (v.extractLsb' 16 16)))

/-! ### Reset and invariants -/

/-- What the spec gives for reset (R33, D26): `x[0]` is 0, `pc` is a multiple of 4; no byte is loaded
(the model's choice: loading is the environment's, log 9). -/
def Obligations.ResetLeavesAlignedPcAndEmptyMemory : Prop :=
  State.reset.getReg 0 = 0#32 ∧ State.reset.pc.toNat % 4 = 0 ∧ ∀ a : Nat, Memory.read State.reset.mem a = none

/-- The reset state meets the invariant `State.wf`. -/
def Obligations.ResetStateIsCanonical : Prop := State.reset.wf = true

/-- Every step keeps memory in canonical form: addresses strictly rising and inside the 32-bit space (R40), also in every
state the environment will resume with. -/
def Obligations.StepKeepsMemoryCanonical : Prop :=
  ∀ s t : State, s.wf = true → step s = .next t → t.wf = true

/-- No step changes the platform: byte order, overflow policy and address map are fixed for a whole run (R44, R217). The last
three clauses are about the model's own fields: no step changes the environment's relation (the form of log 7), and the
counts of resumed traps (log 7) and of draws (log 8) never fall. -/
def Obligations.StepKeepsThePlatform : Prop :=
  ∀ s t : State, step s = .next t →
    t.platform = s.platform ∧ t.trapEnv = s.trapEnv ∧ s.traps ≤ t.traps ∧ s.draws ≤ t.draws

/-- Only `jr` and `jalr` can load a misaligned `pc` (R27): every other instruction, a resumed `trap` apart, keeps an aligned
`pc` aligned. -/
def Obligations.OtherInstructionsKeepPcAligned : Prop :=
  ∀ (i : Instr) (s t : State), s.pc.toNat % 4 = 0 → jumpsToRegister i = false → isTrap i = false →
    exec i s = .next t → t.pc.toNat % 4 = 0

/-! ### Frames of every instruction -/

/-- Every instruction but a resumed `trap` leaves every general register but its destination as it was (R34). When the
destination is register 0, no register changes. -/
def Obligations.OnlyTheDestinationRegisterChanges : Prop :=
  ∀ (i : Instr) (s t : State), isTrap i = false → exec i s = .next t →
    ∀ r : RegNo, (destination i ≠ some r ∨ r = 0) → t.getReg r = s.getReg r

/-- `hi` is written only by `div`, `divu`, `mult`, `multu`, `mthi`, and `lo` only by `div`, `divu`, `mult`, `multu`, `mtlo`
(R23); what a resumed `trap` changes is the environment's. -/
def Obligations.OnlySixInstructionsWriteHiLo : Prop :=
  ∀ (i : Instr) (s t : State), isTrap i = false → exec i s = .next t →
    (writesHi i = false → t.hi = s.hi) ∧ (writesLo i = false → t.lo = s.lo)

/-- Every byte of memory reads as before, except the bytes a store writes: `n` bytes at the effective address of the state
before it (R30, R34, R43). -/
def Obligations.OnlyStoredBytesChange : Prop :=
  ∀ (i : Instr) (s t : State), isTrap i = false → exec i s = .next t →
    (storedBytes s i = none → ∀ a : Nat, Memory.read t.mem a = Memory.read s.mem a) ∧
    (∀ (ea : Word) (n : Nat), storedBytes s i = some (ea, n) →
      ∀ a : Nat, ¬ inBytes a ea n → Memory.read t.mem a = Memory.read s.mem a)

/-- Every instruction whose rule does not write `pc` goes on at `pc + 4`, modulo 2^32 (R25, D4). -/
def Obligations.OtherInstructionsAdvancePc : Prop :=
  ∀ (i : Instr) (s t : State), transfersControl i = false → exec i s = .next t →
    t.pc.toNat = (s.pc.toNat + 4) % 4294967296

/-- The model's own fields: no instruction changes the platform or the environment's relation, only a resumed `trap` counts as
one, and only a division takes draws, none or two (log 1, 2, 3, 7, 8). -/
def Obligations.ModelFieldsChangeOnlyWhereSaid : Prop :=
  ∀ (i : Instr) (s t : State), exec i s = .next t →
    t.platform = s.platform ∧ t.trapEnv = s.trapEnv ∧
    (isTrap i = false → t.traps = s.traps) ∧ (isTrap i = true → t.traps = s.traps + 1) ∧
    (isDivision i = false → t.draws = s.draws) ∧ (t.draws = s.draws ∨ t.draws = s.draws + 2)

/-- The last row of R202: 38 instructions complete in every state. -/
def Obligations.ThirtyEightInstructionsNeverRaise : Prop :=
  ∀ (i : Instr) (s : State), neverRaises i = true → ∃ t, exec i s = .next t

/-- The rows of R202 for the others: an instruction that ends the run does so with an exception of its row (and, the model's
own, `unwrittenByte` for a load: log 6). -/
def Obligations.InstructionsRaiseOnlyWhatTheirRowNames : Prop :=
  ∀ (i : Instr) (s : State) (e : Fault), exec i s = .fault e → canRaise s i e

/-! ### Arithmetic and logic -/

/-- R101, R103, R120: `addu`, `addiu`, `subu` complete in every state, under either overflow policy, with the sum or
difference modulo 2^32; the immediate is sign-extended. That they never raise is the spec's decision D8. -/
def Obligations.UnsignedAddSubtractWrap : Prop :=
  ∀ (s : State) (rd rs rt : RegNo) (imm : BitVec 16),
    (∃ t, exec (.addu rd rs rt) s = .next t ∧
      (rd ≠ 0 → (t.getReg rd).toNat = ((s.getReg rs).toNat + (s.getReg rt).toNat) % 4294967296)) ∧
    (∃ t, exec (.addiu rt rs imm) s = .next t ∧
      (rt ≠ 0 → t.getReg rt = BitVec.ofInt 32 ((s.getReg rs).toInt + imm.toInt))) ∧
    (∃ t, exec (.subu rd rs rt) s = .next t ∧
      (rd ≠ 0 → t.getReg rd = BitVec.ofInt 32 ((s.getReg rs).toInt - (s.getReg rt).toInt)))

/-- `add`, `addi`, `sub` (R100, R102, R119): when the exact integer result is in the signed range, or `OVF_POLICY = wrap`,
the instruction completes with the result modulo 2^32. The overflow policy is the spec's decision D8. -/
def Obligations.SignedAddSubtractComplete : Prop :=
  ∀ (s : State) (rd rs rt : RegNo) (imm : BitVec 16),
    (s.platform.ovf = .wrap ∨ (-2147483648 ≤ (s.getReg rs).toInt + (s.getReg rt).toInt ∧
        (s.getReg rs).toInt + (s.getReg rt).toInt ≤ 2147483647) →
      ∃ t, exec (.add rd rs rt) s = .next t ∧
        (rd ≠ 0 → t.getReg rd = BitVec.ofInt 32 ((s.getReg rs).toInt + (s.getReg rt).toInt))) ∧
    (s.platform.ovf = .wrap ∨ (-2147483648 ≤ (s.getReg rs).toInt + imm.toInt ∧
        (s.getReg rs).toInt + imm.toInt ≤ 2147483647) →
      ∃ t, exec (.addi rt rs imm) s = .next t ∧
        (rt ≠ 0 → t.getReg rt = BitVec.ofInt 32 ((s.getReg rs).toInt + imm.toInt))) ∧
    (s.platform.ovf = .wrap ∨ (-2147483648 ≤ (s.getReg rs).toInt - (s.getReg rt).toInt ∧
        (s.getReg rs).toInt - (s.getReg rt).toInt ≤ 2147483647) →
      ∃ t, exec (.sub rd rs rt) s = .next t ∧
        (rd ≠ 0 → t.getReg rd = BitVec.ofInt 32 ((s.getReg rs).toInt - (s.getReg rt).toInt)))

/-- `add`, `addi`, `sub` under `OVF_POLICY = fault`: `IntegerOverflow` exactly when the exact integer result is outside
-2^31 to 2^31-1, also when the destination is register 0 (R124, D8). -/
def Obligations.SignedOverflowRaisesUnderFaultPolicy : Prop :=
  ∀ (s : State) (rd rs rt : RegNo) (imm : BitVec 16), s.platform.ovf = .fault →
    (exec (.add rd rs rt) s = .fault .integerOverflow ↔ ((s.getReg rs).toInt + (s.getReg rt).toInt < -2147483648 ∨
      2147483647 < (s.getReg rs).toInt + (s.getReg rt).toInt)) ∧
    (exec (.addi rt rs imm) s = .fault .integerOverflow ↔ ((s.getReg rs).toInt + imm.toInt < -2147483648 ∨
      2147483647 < (s.getReg rs).toInt + imm.toInt)) ∧
    (exec (.sub rd rs rt) s = .fault .integerOverflow ↔ ((s.getReg rs).toInt - (s.getReg rt).toInt < -2147483648 ∨
      2147483647 < (s.getReg rs).toInt - (s.getReg rt).toInt))

/-- R104, R110, R111, R121: the word of `and`, `nor`, `or`, `xor`, and its operation bit by bit. -/
def Obligations.LogicalOperationsActBitByBit : Prop :=
  ∀ (s : State) (rd rs rt : RegNo),
    (decode (regWord (regBits rs) (regBits rt) (regBits rd) 0#5 0x24#6) = .ok (.and rd rs rt) ∧
      ∃ t, exec (.and rd rs rt) s = .next t ∧
      (rd ≠ 0 → ∀ k < 32, (t.getReg rd).getLsbD k = ((s.getReg rs).getLsbD k && (s.getReg rt).getLsbD k))) ∧
    (decode (regWord (regBits rs) (regBits rt) (regBits rd) 0#5 0x27#6) = .ok (.nor rd rs rt) ∧
      ∃ t, exec (.nor rd rs rt) s = .next t ∧
      (rd ≠ 0 → ∀ k < 32, (t.getReg rd).getLsbD k = !((s.getReg rs).getLsbD k || (s.getReg rt).getLsbD k))) ∧
    (decode (regWord (regBits rs) (regBits rt) (regBits rd) 0#5 0x25#6) = .ok (.or rd rs rt) ∧
      ∃ t, exec (.or rd rs rt) s = .next t ∧
      (rd ≠ 0 → ∀ k < 32, (t.getReg rd).getLsbD k = ((s.getReg rs).getLsbD k || (s.getReg rt).getLsbD k))) ∧
    (decode (regWord (regBits rs) (regBits rt) (regBits rd) 0#5 0x26#6) = .ok (.xor rd rs rt) ∧
      ∃ t, exec (.xor rd rs rt) s = .next t ∧
      (rd ≠ 0 → ∀ k < 32, (t.getReg rd).getLsbD k = ((s.getReg rs).getLsbD k ^^ (s.getReg rt).getLsbD k)))

/-- R105, R112, R122: the word of `andi`, `ori`, `xori`, and the operation with the zero-extended immediate: `andi` clears
the upper half, `ori` and `xori` pass it through. -/
def Obligations.LogicalImmediatesZeroExtend : Prop :=
  ∀ (s : State) (rt rs : RegNo) (imm : BitVec 16),
    (decode (immWord 0x0C#6 (regBits rs) (regBits rt) imm) = .ok (.andi rt rs imm) ∧
      ∃ t, exec (.andi rt rs imm) s = .next t ∧
      (rt ≠ 0 → t.getReg rt = 0#16 ++ ((s.getReg rs).extractLsb' 0 16 &&& imm))) ∧
    (decode (immWord 0x0D#6 (regBits rs) (regBits rt) imm) = .ok (.ori rt rs imm) ∧
      ∃ t, exec (.ori rt rs imm) s = .next t ∧
      (rt ≠ 0 → t.getReg rt = (s.getReg rs).extractLsb' 16 16 ++ ((s.getReg rs).extractLsb' 0 16 ||| imm))) ∧
    (decode (immWord 0x0E#6 (regBits rs) (regBits rt) imm) = .ok (.xori rt rs imm) ∧
      ∃ t, exec (.xori rt rs imm) s = .next t ∧
      (rt ≠ 0 → t.getReg rt = (s.getReg rs).extractLsb' 16 16 ++ ((s.getReg rs).extractLsb' 0 16 ^^^ imm)))

/-- R113, R115, R117: the word of `sll`, `sra`, `srl` by a constant 0 to 31, and its operation bit by bit: zeros enter at
the right, copies of bit 31 at the left, zeros at the left. -/
def Obligations.ConstantShiftsMoveBits : Prop :=
  ∀ (s : State) (rd rt : RegNo) (sa : Nat), sa < 32 →
    (decode (regWord 0#5 (regBits rt) (regBits rd) (BitVec.ofNat 5 sa) 0x00#6) = .ok (.sll rd rt sa) ∧
      ∃ t, exec (.sll rd rt sa) s = .next t ∧
      (rd ≠ 0 → ∀ k < 32, (t.getReg rd).getLsbD k = if k < sa then false else (s.getReg rt).getLsbD (k - sa))) ∧
    (decode (regWord 0#5 (regBits rt) (regBits rd) (BitVec.ofNat 5 sa) 0x03#6) = .ok (.sra rd rt sa) ∧
      ∃ t, exec (.sra rd rt sa) s = .next t ∧
      (rd ≠ 0 → ∀ k < 32, (t.getReg rd).getLsbD k =
        if k + sa < 32 then (s.getReg rt).getLsbD (k + sa) else (s.getReg rt).getLsbD 31)) ∧
    (decode (regWord 0#5 (regBits rt) (regBits rd) (BitVec.ofNat 5 sa) 0x02#6) = .ok (.srl rd rt sa) ∧
      ∃ t, exec (.srl rd rt sa) s = .next t ∧
      (rd ≠ 0 → ∀ k < 32, (t.getReg rd).getLsbD k = if k + sa < 32 then (s.getReg rt).getLsbD (k + sa) else false))

/-- `sllv`, `srav`, `srlv` (R114, R116, R118) complete in every state and do what the constant shift by the low five bits of
`x[s]` does; taking those five bits is the spec's decision D12. -/
def Obligations.VariableShiftsUseLowFiveBits : Prop :=
  ∀ (s : State) (rd rt rs : RegNo),
    (∃ t, exec (.sllv rd rt rs) s = .next t ∧ exec (.sll rd rt ((s.getReg rs).toNat % 32)) s = .next t) ∧
    (∃ t, exec (.srav rd rt rs) s = .next t ∧ exec (.sra rd rt ((s.getReg rs).toNat % 32)) s = .next t) ∧
    (∃ t, exec (.srlv rd rt rs) s = .next t ∧ exec (.srl rd rt ((s.getReg rs).toNat % 32)) s = .next t)

/-- `mult` and `multu` (R108, R109) complete with the exact product, signed or unsigned (D7), in `hi:lo`, and agree on
`lo`. -/
def Obligations.MultiplyLeavesTheExactProduct : Prop :=
  ∀ (s : State) (rs rt : RegNo), ∃ t u, exec (.mult rs rt) s = .next t ∧ exec (.multu rs rt) s = .next u ∧
    (t.hi ++ t.lo : BitVec 64).toInt = (s.getReg rs).toInt * (s.getReg rt).toInt ∧
    (u.hi ++ u.lo : BitVec 64).toNat = (s.getReg rs).toNat * (s.getReg rt).toNat ∧ t.lo = u.lo

/-- `div` by a nonzero divisor (R106) completes: the quotient truncated toward zero in `lo`, the remainder of the dividend's
sign in `hi`; -2^31 / -1 leaves 0x80000000 and 0. Signedness is D7, the overflow case D10. -/
def Obligations.SignedDivideTruncates : Prop :=
  ∀ (s : State) (rs rt : RegNo), s.getReg rt ≠ 0#32 → ∃ t, exec (.div rs rt) s = .next t ∧
    (if s.getReg rs = 0x80000000#32 ∧ s.getReg rt = 0xFFFFFFFF#32 then t.lo = 0x80000000#32 ∧ t.hi = 0#32
     else t.lo.toInt = (s.getReg rs).toInt.tdiv (s.getReg rt).toInt ∧
       t.hi.toInt = (s.getReg rs).toInt.tmod (s.getReg rt).toInt)

/-- `divu` by a nonzero divisor (R107, D7) completes: floor quotient in `lo`, remainder in `hi`. -/
def Obligations.UnsignedDivideFloors : Prop :=
  ∀ (s : State) (rs rt : RegNo), s.getReg rt ≠ 0#32 → ∃ t, exec (.divu rs rt) s = .next t ∧
    t.lo.toNat = (s.getReg rs).toNat / (s.getReg rt).toNat ∧ t.hi.toNat = (s.getReg rs).toNat % (s.getReg rt).toNat

/-- The law of R123: after a division by a nonzero divisor `x[s] = lo * x[t] + hi` modulo 2^32, the overflow case
included. -/
def Obligations.DividendIsQuotientTimesDivisorPlusRemainder : Prop :=
  ∀ (s t : State) (rs rt : RegNo), s.getReg rt ≠ 0#32 →
    (exec (.div rs rt) s = .next t ∨ exec (.divu rs rt) s = .next t) → s.getReg rs = t.lo * s.getReg rt + t.hi

/-- Division by zero (D9, U2): no exception; `hi` and `lo` become two draws that no earlier division has taken, whatever the
operands; everything else is as after any other division. The numbering of the draws is the model's (log 8). -/
def Obligations.DivisionByZeroTakesTwoFreshDraws : Prop :=
  ∀ (s : State) (rs rt : RegNo), s.getReg rt = 0#32 →
    ∃ t, exec (.div rs rt) s = .next t ∧ exec (.divu rs rt) s = .next t ∧
      t.hi = Config.draw s.draws ∧ t.lo = Config.draw (s.draws + 1) ∧ t.draws = s.draws + 2 ∧
      (∀ r, t.getReg r = s.getReg r) ∧ t.mem = s.mem ∧ t.pc = s.pc + 4#32

/-! ### Constants and comparisons -/

/-- R130, R131: the words of `lhi` and `llo`; `lhi` writes the upper half and keeps the lower, `llo` writes the lower half
and keeps the upper; register 0 is not changed. -/
def Obligations.HalfWritesKeepTheOtherHalf : Prop :=
  ∀ (s : State) (rt : RegNo) (imm : BitVec 16),
    (decode (immWord 0x19#6 0#5 (regBits rt) imm) = .ok (.lhi rt imm) ∧
      ∃ t, exec (.lhi rt imm) s = .next t ∧
      (rt = 0 → ∀ r, t.getReg r = s.getReg r) ∧ (rt ≠ 0 →
      (t.getReg rt).extractLsb' 16 16 = imm ∧ (t.getReg rt).extractLsb' 0 16 = (s.getReg rt).extractLsb' 0 16)) ∧
    (decode (immWord 0x18#6 0#5 (regBits rt) imm) = .ok (.llo rt imm) ∧
      ∃ t, exec (.llo rt imm) s = .next t ∧
      (rt = 0 → ∀ r, t.getReg r = s.getReg r) ∧ (rt ≠ 0 →
      (t.getReg rt).extractLsb' 16 16 = (s.getReg rt).extractLsb' 16 16 ∧ (t.getReg rt).extractLsb' 0 16 = imm))

/-- R132: `lhi` and `llo` of a constant's halves, in either order, leave the constant in the register, whatever it held. -/
def Obligations.LhiAndLloBuildAnyConstant : Prop :=
  ∀ (s : State) (rt : RegNo) (K : Word), rt ≠ 0 →
    (∃ t u, exec (.lhi rt (K.extractLsb' 16 16)) s = .next t ∧ exec (.llo rt (K.extractLsb' 0 16)) t = .next u ∧
      u.getReg rt = K) ∧
    (∃ t u, exec (.llo rt (K.extractLsb' 0 16)) s = .next t ∧ exec (.lhi rt (K.extractLsb' 16 16)) t = .next u ∧
      u.getReg rt = K)

/-- `slt`, `sltu`, `slti`, `sltiu` (R135 to R138) complete with 1 or 0 (D11): signed without `u`, unsigned with it (D7); the
immediate is sign-extended before either comparison. -/
def Obligations.ComparisonsWriteOneOrZero : Prop :=
  ∀ (s : State) (rd rs rt : RegNo) (imm : BitVec 16),
    (∃ t, exec (.slt rd rs rt) s = .next t ∧
      (rd ≠ 0 → (t.getReg rd).toNat = if (s.getReg rs).toInt < (s.getReg rt).toInt then 1 else 0)) ∧
    (∃ t, exec (.sltu rd rs rt) s = .next t ∧
      (rd ≠ 0 → (t.getReg rd).toNat = if (s.getReg rs).toNat < (s.getReg rt).toNat then 1 else 0)) ∧
    (∃ t, exec (.slti rt rs imm) s = .next t ∧
      (rt ≠ 0 → (t.getReg rt).toNat = if (s.getReg rs).toInt < imm.toInt then 1 else 0)) ∧
    (∃ t, exec (.sltiu rt rs imm) s = .next t ∧
      (rt ≠ 0 → (t.getReg rt).toNat =
        if (s.getReg rs).toNat < (if imm.toNat < 32768 then imm.toNat else 4294901760 + imm.toNat) then 1 else 0))

/-! ### Branches and jumps -/

/-- R140 to R144: a branch completes in every state; it goes to `pc + 4 + (sext_32(i) << 2)` when its condition holds,
else to `pc + 4`; it writes no register and no memory. That `bgtz` and `blez` compare signed is D7. -/
def Obligations.BranchesGoToTargetOrNext : Prop :=
  ∀ (s : State) (rs rt : RegNo) (imm : BitVec 16),
    (∃ t, exec (.beq rs rt imm) s = .next t ∧ { t with pc := s.pc } = s ∧
      t.pc = if s.getReg rs = s.getReg rt then s.pc + 4#32 + (imm.signExtend 32 <<< 2) else s.pc + 4#32) ∧
    (∃ t, exec (.bne rs rt imm) s = .next t ∧ { t with pc := s.pc } = s ∧
      t.pc = if s.getReg rs = s.getReg rt then s.pc + 4#32 else s.pc + 4#32 + (imm.signExtend 32 <<< 2)) ∧
    (∃ t, exec (.bgtz rs imm) s = .next t ∧ { t with pc := s.pc } = s ∧
      t.pc = if (s.getReg rs).msb = false ∧ s.getReg rs ≠ 0#32 then s.pc + 4#32 + (imm.signExtend 32 <<< 2)
        else s.pc + 4#32) ∧
    (∃ t, exec (.blez rs imm) s = .next t ∧ { t with pc := s.pc } = s ∧
      t.pc = if (s.getReg rs).msb = true ∨ s.getReg rs = 0#32 then s.pc + 4#32 + (imm.signExtend 32 <<< 2)
        else s.pc + 4#32)

/-- Branch and jump fields are signed counts of words from the next instruction (R69): the target is
`pc + 4 + 4 * offset` modulo 2^32. -/
def Obligations.OffsetsAreSignedWordCounts : Prop :=
  ∀ pc : Word,
    (∀ imm : BitVec 16, branchTarget pc imm = BitVec.ofInt 32 (pc.toNat + 4 + 4 * imm.toInt)) ∧
    (∀ off : BitVec 26, jumpTarget pc off = BitVec.ofInt 32 (pc.toNat + 4 + 4 * off.toInt))

/-- R150, R151: the words of `j` and `jal`; they complete in every state at `pc + 4 + (sext_32(a) << 2)`; `jal` leaves `pc
+ 4` in `x[31]`. -/
def Obligations.RelativeJumpsAndLink : Prop :=
  ∀ (s : State) (off : BitVec 26),
    (decode (jumpWord 0x02#6 off) = .ok (.j off) ∧
      ∃ t, exec (.j off) s = .next t ∧ t.pc = s.pc + 4#32 + (off.signExtend 32 <<< 2) ∧ { t with pc := s.pc } = s) ∧
    (decode (jumpWord 0x03#6 off) = .ok (.jal off) ∧
      ∃ t, exec (.jal off) s = .next t ∧ t.pc = s.pc + 4#32 + (off.signExtend 32 <<< 2) ∧ t.getReg 31 = s.pc + 4#32)

/-- R153: the word of `jr`; it completes in every state with the register's value in `pc`, aligned or not, and changes
nothing else. -/
def Obligations.JumpRegisterCopiesTheRegister : Prop :=
  ∀ (s : State) (rs : RegNo), decode (regWord (regBits rs) 0#5 0#5 0#5 0x08#6) = .ok (.jr rs) ∧
    ∃ t, exec (.jr rs) s = .next t ∧ t.pc = s.getReg rs ∧ { t with pc := s.pc } = s

/-- `jalr` (R152) completes in every state with the link in `x[31]`; it goes to `x[s]`, and `jalr $31` goes on at `pc + 4`
because the link is written first (D6). -/
def Obligations.JumpAndLinkRegisterLinksFirst : Prop :=
  ∀ (s : State) (rs : RegNo), ∃ t, exec (.jalr rs) s = .next t ∧ t.getReg 31 = s.pc + 4#32 ∧
    t.pc = if rs = 31 then s.pc + 4#32 else s.getReg rs

/-! ### Loads and stores -/

/-- `lb`, `lbu` (R160, R161): the byte at `x[s] + sext_32(i)`, sign- or zero-extended. The wrap of
the address is D30, the mapping D17. -/
def Obligations.ByteLoadsExtend : Prop :=
  ∀ (s : State) (rt rs : RegNo) (imm : BitVec 16) (b : Byte),
    Platform.mapped s.platform (s.getReg rs + imm.signExtend 32) 1 .load = true →
    Memory.read s.mem (s.getReg rs + imm.signExtend 32).toNat = some b →
    (∃ t, exec (.lb rt imm rs) s = .next t ∧ (rt ≠ 0 → (t.getReg rt).toInt = b.toInt)) ∧
    (∃ t, exec (.lbu rt imm rs) s = .next t ∧ (rt ≠ 0 → (t.getReg rt).toNat = b.toNat))

/-- `lh`, `lhu` (R162, R163): the halfword at an even `x[s] + sext_32(i)`, in the machine's byte order, sign- or
zero-extended (D2, D17, D30). -/
def Obligations.HalfwordLoadsExtend : Prop :=
  ∀ (s : State) (rt rs : RegNo) (imm : BitVec 16) (b0 b1 : Byte),
    (s.getReg rs + imm.signExtend 32).toNat % 2 = 0 →
    Platform.mapped s.platform (s.getReg rs + imm.signExtend 32) 2 .load = true →
    Memory.read s.mem (s.getReg rs + imm.signExtend 32).toNat = some b0 →
    Memory.read s.mem ((s.getReg rs + imm.signExtend 32).toNat + 1) = some b1 →
    (∃ t, exec (.lh rt imm rs) s = .next t ∧ (rt ≠ 0 → (t.getReg rt).toInt =
      match s.platform.endian with | .big => (b0 ++ b1).toInt | .little => (b1 ++ b0).toInt)) ∧
    (∃ t, exec (.lhu rt imm rs) s = .next t ∧ (rt ≠ 0 → (t.getReg rt).toNat =
      match s.platform.endian with | .big => (b0 ++ b1).toNat | .little => (b1 ++ b0).toNat))

/-- `lw` (R164): the word at a multiple of 4, in the machine's byte order (D2, D17, D30). -/
def Obligations.WordLoadReadsFourBytes : Prop :=
  ∀ (s : State) (rt rs : RegNo) (imm : BitVec 16) (b0 b1 b2 b3 : Byte),
    (s.getReg rs + imm.signExtend 32).toNat % 4 = 0 →
    Platform.mapped s.platform (s.getReg rs + imm.signExtend 32) 4 .load = true →
    Memory.read s.mem (s.getReg rs + imm.signExtend 32).toNat = some b0 →
    Memory.read s.mem ((s.getReg rs + imm.signExtend 32).toNat + 1) = some b1 →
    Memory.read s.mem ((s.getReg rs + imm.signExtend 32).toNat + 2) = some b2 →
    Memory.read s.mem ((s.getReg rs + imm.signExtend 32).toNat + 3) = some b3 →
    ∃ t, exec (.lw rt imm rs) s = .next t ∧ (rt ≠ 0 → t.getReg rt =
      match s.platform.endian with | .big => b0 ++ b1 ++ b2 ++ b3 | .little => b3 ++ b2 ++ b1 ++ b0)

/-- What loads raise, alignment before mapping (R165, R204; decisions D15, D17): `lh`, `lhu` at an odd address, `lw` at an
address that is no multiple of 4, every load at an aligned address the platform does not map. The effective address wraps
modulo 2^32 without an exception (D30). -/
def Obligations.LoadsRaiseAddressErrorThenAccessFault : Prop :=
  ∀ (s : State) (rt rs : RegNo) (imm : BitVec 16) (ea : Word), ea = s.getReg rs + imm.signExtend 32 →
    (ea.toNat % 2 ≠ 0 → exec (.lh rt imm rs) s = .fault (.addressError ea .load) ∧
      exec (.lhu rt imm rs) s = .fault (.addressError ea .load)) ∧
    (ea.toNat % 4 ≠ 0 → exec (.lw rt imm rs) s = .fault (.addressError ea .load)) ∧
    (Platform.mapped s.platform ea 1 .load = false → exec (.lb rt imm rs) s = .fault (.accessFault ea .load) ∧
      exec (.lbu rt imm rs) s = .fault (.accessFault ea .load)) ∧
    (ea.toNat % 2 = 0 → Platform.mapped s.platform ea 2 .load = false →
      exec (.lh rt imm rs) s = .fault (.accessFault ea .load) ∧ exec (.lhu rt imm rs) s = .fault (.accessFault ea .load)) ∧
    (ea.toNat % 4 = 0 → Platform.mapped s.platform ea 4 .load = false →
      exec (.lw rt imm rs) s = .fault (.accessFault ea .load))

/-- `sb`, `sh`, `sw` (R170 to R172) at an aligned, mapped address complete, and the bytes at the effective address read as
the low bytes of `x[t]` in the machine's byte order. That no other byte changes is `OnlyStoredBytesChange`. (D2, D17,
D30.) -/
def Obligations.StoresPutTheLowBytes : Prop :=
  ∀ (s : State) (rt rs : RegNo) (imm : BitVec 16) (ea : Word), ea = s.getReg rs + imm.signExtend 32 →
    (Platform.mapped s.platform ea 1 .store = true →
      ∃ t, exec (.sb rt imm rs) s = .next t ∧ Memory.read t.mem ea.toNat = some ((s.getReg rt).extractLsb' 0 8)) ∧
    (ea.toNat % 2 = 0 → Platform.mapped s.platform ea 2 .store = true →
      ∃ t, exec (.sh rt imm rs) s = .next t ∧ ∀ k < 2, Memory.read t.mem (ea.toNat + k) = some ((s.getReg rt).extractLsb'
        (match s.platform.endian with | .big => 8 * (1 - k) | .little => 8 * k) 8)) ∧
    (ea.toNat % 4 = 0 → Platform.mapped s.platform ea 4 .store = true →
      ∃ t, exec (.sw rt imm rs) s = .next t ∧ ∀ k < 4, Memory.read t.mem (ea.toNat + k) = some ((s.getReg rt).extractLsb'
        (match s.platform.endian with | .big => 8 * (3 - k) | .little => 8 * k) 8))

/-- What stores raise, alignment before mapping (R173, R204; decisions D15, D17). -/
def Obligations.StoresRaiseAddressErrorThenAccessFault : Prop :=
  ∀ (s : State) (rt rs : RegNo) (imm : BitVec 16) (ea : Word), ea = s.getReg rs + imm.signExtend 32 →
    (ea.toNat % 2 ≠ 0 → exec (.sh rt imm rs) s = .fault (.addressError ea .store)) ∧
    (ea.toNat % 4 ≠ 0 → exec (.sw rt imm rs) s = .fault (.addressError ea .store)) ∧
    (Platform.mapped s.platform ea 1 .store = false → exec (.sb rt imm rs) s = .fault (.accessFault ea .store)) ∧
    (ea.toNat % 2 = 0 → Platform.mapped s.platform ea 2 .store = false →
      exec (.sh rt imm rs) s = .fault (.accessFault ea .store)) ∧
    (ea.toNat % 4 = 0 → Platform.mapped s.platform ea 4 .store = false →
      exec (.sw rt imm rs) s = .fault (.accessFault ea .store))

/-- `lw` after `sw` at the same address returns the stored value, under either byte order (R164, R51), when the base register
still holds the base. -/
def Obligations.WordLoadReturnsTheWordStored : Prop :=
  ∀ (s t : State) (rt rs rd : RegNo) (imm : BitVec 16), exec (.sw rt imm rs) s = .next t →
    Platform.mapped s.platform (s.getReg rs + imm.signExtend 32) 4 .load = true → rd ≠ 0 →
    ∃ u, exec (.lw rd imm rs) t = .next u ∧ u.getReg rd = s.getReg rt

/-! ### Data movement and trap -/

/-- R180, R181: the words of `mfhi` and `mflo`; they complete in every state with a copy of `hi` or `lo`, which keep their
values; a destination of register 0 has no effect. -/
def Obligations.MoveFromHiLoCopies : Prop :=
  ∀ (s : State) (rd : RegNo),
    (decode (regWord 0#5 0#5 (regBits rd) 0#5 0x10#6) = .ok (.mfhi rd) ∧
      ∃ t, exec (.mfhi rd) s = .next t ∧ (rd ≠ 0 → t.getReg rd = s.hi) ∧
        (rd = 0 → ∀ r, t.getReg r = s.getReg r) ∧ t.hi = s.hi) ∧
    (decode (regWord 0#5 0#5 (regBits rd) 0#5 0x12#6) = .ok (.mflo rd) ∧
      ∃ t, exec (.mflo rd) s = .next t ∧ (rd ≠ 0 → t.getReg rd = s.lo) ∧
        (rd = 0 → ∀ r, t.getReg r = s.getReg r) ∧ t.lo = s.lo)

/-- R182, R183: the words of `mthi` and `mtlo`; they complete in every state with a copy of the register
in `hi` or `lo`; the other of the two is unchanged. -/
def Obligations.MoveToHiLoKeepsTheOther : Prop :=
  ∀ (s : State) (rs : RegNo),
    (decode (regWord (regBits rs) 0#5 0#5 0#5 0x11#6) = .ok (.mthi rs) ∧
      ∃ t, exec (.mthi rs) s = .next t ∧ t.hi = s.getReg rs ∧ t.lo = s.lo) ∧
    (decode (regWord (regBits rs) 0#5 0#5 0#5 0x13#6) = .ok (.mtlo rs) ∧
      ∃ t, exec (.mtlo rs) s = .next t ∧ t.lo = s.getReg rs ∧ t.hi = s.hi)

/-- `trap` that the environment resumes (R191, R206, D21): where `TRAP_ENV` relates the code and the whole state to resuming
and not to `stop`, the next state has a state record it relates them to; and whenever a trap goes on, it is so. The model's
own fields: the relation and the platform stay, the trap is counted (log 7), no draw is taken (log 8). -/
def Obligations.ResumedTrapContinuesWithTheEnvironmentsState : Prop :=
  ∀ (s : State) (code : Nat),
    ((∃ o, mayAnswer s.trapEnv code s.toArch o) → ¬ mayAnswer s.trapEnv code s.toArch none →
      ∃ t, exec (.trap code) s = .next t) ∧
    (∀ t, exec (.trap code) s = .next t → mayAnswer s.trapEnv code s.toArch (some t.toArch) ∧
      t.trapEnv = s.trapEnv ∧ t.platform = s.platform ∧ t.traps = s.traps + 1 ∧ t.draws = s.draws)

/-- `trap` raises `Trap(code)` and ends the run where `TRAP_ENV` relates the code and the state to no resumption: to `stop`
alone, or to nothing, as when none is supplied (R190, R191; D21, D31; that nothing means `stop` in an environment that is
supplied is log 7). Whenever a trap ends the run, it is with `Trap(code)`, and `stop` was allowed or nothing was. -/
def Obligations.UnresumedTrapEndsTheRun : Prop :=
  ∀ (s : State) (code : Nat),
    ((∀ a, ¬ mayAnswer s.trapEnv code s.toArch (some a)) → exec (.trap code) s = .fault (.trap code)) ∧
    (∀ e, exec (.trap code) s = .fault e → e = .trap code ∧
      (mayAnswer s.trapEnv code s.toArch none ∨ ∀ o, ¬ mayAnswer s.trapEnv code s.toArch o))

/-- A run that ends in an exception ends in the state of the step that raised it, unchanged, `pc` included (R203, R216; D22,
D31): that state's own step raises that exception. -/
def Obligations.RunEndsInTheStateThatRaised : Prop :=
  ∀ (k : Nat) (s u : State) (e : Fault), runFrom k s = (u, some e) → step u = .fault e
end

