-- ==== Sys2Proof/Laws/Encode.lean ====
section
/-! SUPPORT. The fields of a word built from fields, for each of the three formats (R62 to R65). -/

namespace Sys2Proof

variable (s t d h : BitVec 5) (op f : BitVec 6) (i : BitVec 16) (a : BitVec 26)

/-- A register number survives its field. -/
@[simp] theorem toFin_regBits (r : RegNo) : (regBits r).toFin = r := rfl

@[simp] theorem toFin_toNat_ofFin (r : RegNo) : (BitVec.ofFin r : BitVec 5).toNat = r.val := rfl

/-- An appended value as a number. -/
theorem append_toNat {m n : Nat} (x : BitVec m) (y : BitVec n) : (x ++ y).toNat = x.toNat * 2 ^ n + y.toNat := by
  rw [BitVec.toNat_append, ← Nat.shiftLeft_add_eq_or_of_lt y.isLt, Nat.shiftLeft_eq]

theorem regWord_toNat : (regWord s t d h f).toNat =
    s.toNat * 2097152 + t.toNat * 65536 + d.toNat * 2048 + h.toNat * 64 + f.toNat := by
  simp only [regWord, append_toNat, BitVec.toNat_ofNat]; omega

theorem immWord_toNat : (immWord op s t i).toNat =
    op.toNat * 67108864 + s.toNat * 2097152 + t.toNat * 65536 + i.toNat := by
  simp only [immWord, append_toNat]; omega

theorem jumpWord_toNat : (jumpWord op a).toNat = op.toNat * 67108864 + a.toNat := by
  simp only [jumpWord, append_toNat]; omega

/-- A field's value as a number. -/
theorem extract_toNat (w : Word) (lo len : Nat) : (w.extractLsb' lo len).toNat = w.toNat / 2 ^ lo % 2 ^ len := by
  simp [BitVec.extractLsb'_toNat, Nat.shiftRight_eq_div_pow]

@[simp] theorem fieldOp_regWord : fieldOp (regWord s t d h f) = 0x00#6 := by
  apply BitVec.eq_of_toNat_eq
  have := s.isLt; have := t.isLt; have := d.isLt; have := h.isLt; have := f.isLt
  simp only [fieldOp, extract_toNat, regWord_toNat, BitVec.toNat_ofNat]; omega

@[simp] theorem fieldF_regWord : fieldF (regWord s t d h f) = f := by
  apply BitVec.eq_of_toNat_eq
  have := f.isLt
  simp only [fieldF, extract_toNat, regWord_toNat]; omega

@[simp] theorem fieldS_regWord : fieldS (regWord s t d h f) = s.toFin := by
  apply congrArg BitVec.toFin (BitVec.eq_of_toNat_eq _)
  have := s.isLt; have := t.isLt; have := d.isLt; have := h.isLt; have := f.isLt
  simp only [extract_toNat, regWord_toNat]; omega

@[simp] theorem fieldT_regWord : fieldT (regWord s t d h f) = t.toFin := by
  apply congrArg BitVec.toFin (BitVec.eq_of_toNat_eq _)
  have := s.isLt; have := t.isLt; have := d.isLt; have := h.isLt; have := f.isLt
  simp only [extract_toNat, regWord_toNat]; omega

@[simp] theorem fieldD_regWord : fieldD (regWord s t d h f) = d.toFin := by
  apply congrArg BitVec.toFin (BitVec.eq_of_toNat_eq _)
  have := s.isLt; have := t.isLt; have := d.isLt; have := h.isLt; have := f.isLt
  simp only [extract_toNat, regWord_toNat]; omega

@[simp] theorem fieldH_regWord : fieldH (regWord s t d h f) = h.toNat := by
  have := s.isLt; have := t.isLt; have := d.isLt; have := h.isLt; have := f.isLt
  simp only [fieldH, extract_toNat, regWord_toNat]; omega

@[simp] theorem fieldOp_immWord : fieldOp (immWord op s t i) = op := by
  apply BitVec.eq_of_toNat_eq
  have := s.isLt; have := t.isLt; have := i.isLt; have := op.isLt
  simp only [fieldOp, extract_toNat, immWord_toNat]; omega

@[simp] theorem fieldS_immWord : fieldS (immWord op s t i) = s.toFin := by
  apply congrArg BitVec.toFin (BitVec.eq_of_toNat_eq _)
  have := s.isLt; have := t.isLt; have := i.isLt; have := op.isLt
  simp only [extract_toNat, immWord_toNat]; omega

@[simp] theorem fieldT_immWord : fieldT (immWord op s t i) = t.toFin := by
  apply congrArg BitVec.toFin (BitVec.eq_of_toNat_eq _)
  have := s.isLt; have := t.isLt; have := i.isLt; have := op.isLt
  simp only [extract_toNat, immWord_toNat]; omega

@[simp] theorem fieldI_immWord : fieldI (immWord op s t i) = i := by
  apply BitVec.eq_of_toNat_eq
  have := i.isLt
  simp only [fieldI, extract_toNat, immWord_toNat]; omega

@[simp] theorem fieldOp_jumpWord : fieldOp (jumpWord op a) = op := by
  apply BitVec.eq_of_toNat_eq
  have := a.isLt; have := op.isLt
  simp only [fieldOp, extract_toNat, jumpWord_toNat]; omega

@[simp] theorem fieldA_jumpWord : fieldA (jumpWord op a) = a := by
  apply BitVec.eq_of_toNat_eq
  have := a.isLt
  simp only [fieldA, extract_toNat, jumpWord_toNat]; omega

/-! ### The rows of R70: mask and match -/

/-- A mask acts on the parts of an appended value. -/
theorem and_append_eq {m n : Nat} {x X x' : BitVec m} {y Y y' : BitVec n} (hx : x &&& X = x') (hy : y &&& Y = y') :
    (x ++ y) &&& (X ++ Y) = x' ++ y' := by rw [BitVec.and_append, hx, hy]

theorem and_ones6 (x : BitVec 6) : x &&& 0x3F#6 = x := BitVec.and_allOnes

/-- Under the Register mask, a Register-encoding word shows its function code (R70). -/
theorem regWord_and_mask : regWord s t d h f &&& 0xFC00003F#32 = f.setWidth 32 := by
  have g : f.setWidth 32 = regWord 0#5 0#5 0#5 0#5 f := by
    apply BitVec.eq_of_toNat_eq
    have := f.isLt
    rw [regWord_toNat, BitVec.toNat_setWidth]; simp; omega
  rw [g, show (0xFC00003F#32 : Word) = 0x3F#6 ++ 0#5 ++ 0#5 ++ 0#5 ++ 0#5 ++ 0x3F#6 by decide]
  exact and_append_eq (and_append_eq (and_append_eq (and_append_eq (and_append_eq (and_ones6 _) BitVec.and_zero)
    BitVec.and_zero) BitVec.and_zero) BitVec.and_zero) (and_ones6 f)

/-- Under the opcode mask, an Immediate-encoding word shows its opcode (R70). -/
theorem immWord_and_mask : immWord op s t i &&& 0xFC000000#32 = immWord op 0#5 0#5 0#16 := by
  rw [show (0xFC000000#32 : Word) = 0x3F#6 ++ 0#5 ++ 0#5 ++ 0#16 by decide]
  exact and_append_eq (and_append_eq (and_append_eq (and_ones6 _) BitVec.and_zero) BitVec.and_zero) BitVec.and_zero

/-- Under the opcode mask, a Jump-encoding word shows its opcode (R70). -/
theorem jumpWord_and_mask : jumpWord op a &&& 0xFC000000#32 = jumpWord op 0#26 := by
  rw [show (0xFC000000#32 : Word) = 0x3F#6 ++ 0#26 by decide]
  exact and_append_eq (and_ones6 _) BitVec.and_zero

end Sys2Proof
end

