-- ==== Sys2Proof/Laws/Memory.lean ====
section
/-! SUPPORT. Memory: a read after a write, the canonical form under every operation, bytes joined and split. -/

namespace Sys2Proof.Machine

/-- A read after a write of one byte: the written value there, the old value elsewhere. -/
theorem read_write (m : Memory) (a k : Nat) (v : Byte) :
    Memory.read (Memory.write m k v) a = if a = k then some v else Memory.read m a := by
  induction m with
  | nil => simp [Memory.write, Memory.read]
  | cons e rest ih =>
    obtain ⟨j, b⟩ := e
    simp only [Memory.write]
    split
    · simp [Memory.read]
    · split
      · subst_vars; simp only [Memory.read]; split <;> rfl
      · simp only [Memory.read, ih]; split_ifs <;> simp_all

/-- A read outside the bytes stored gives what it gave before. -/
theorem read_writeBytes_of_outside (m : Memory) (k a : Nat) (bs : List Byte) (h : a < k ∨ k + bs.length ≤ a) :
    Memory.read (Memory.writeBytes m k bs) a = Memory.read m a := by
  induction bs generalizing m k with
  | nil => rfl
  | cons b bs ih =>
    simp only [List.length_cons] at h
    rw [Memory.writeBytes, ih _ _ (by omega), read_write, if_neg (by omega)]

/-- A read inside the bytes stored gives the byte stored there. -/
theorem read_writeBytes_of_inside (m : Memory) (k j : Nat) (bs : List Byte) (h : j < bs.length) :
    Memory.read (Memory.writeBytes m k bs) (k + j) = some bs[j] := by
  induction bs generalizing m k j with
  | nil => simp at h
  | cons b bs ih =>
    cases j with
    | zero => rw [Memory.writeBytes, read_writeBytes_of_outside _ _ _ _ (by omega), read_write]; simp
    | succ j =>
      have h' : j < bs.length := by simpa using h
      rw [Memory.writeBytes, show k + (j + 1) = k + 1 + j by omega, ih _ _ _ h']; simp

/-- Reading back exactly the bytes just stored. -/
theorem readBytes_writeBytes (m : Memory) (k : Nat) (bs : List Byte) :
    Memory.readBytes (Memory.writeBytes m k bs) k bs.length = some bs := by
  suffices h : ∀ (l : List Byte) (m' : Memory) (k : Nat),
      (∀ j (hj : j < l.length), Memory.read m' (k + j) = some l[j]) → Memory.readBytes m' k l.length = some l from
    h bs _ k fun j hj => read_writeBytes_of_inside m k j bs hj
  intro l
  induction l with
  | nil => intros; rfl
  | cons b l ih =>
    intro m' k h
    have h0 := h 0 (by simp)
    have hr := ih m' (k + 1) fun j hj => by
      have := h (j + 1) (by simpa using hj)
      simpa [Nat.add_assoc, Nat.add_comm 1] using this
    simp only [List.length_cons, Memory.readBytes, hr]
    simp only [Nat.add_zero, List.getElem_cons_zero] at h0
    simp [h0]

/-- `n` bytes are read exactly when each of them holds a value. -/
theorem readBytes_eq_some_iff (m : Memory) (a n : Nat) :
    (∃ bs, Memory.readBytes m a n = some bs) ↔ ∀ j < n, ∃ b, Memory.read m (a + j) = some b := by
  induction n generalizing a with
  | zero => simp [Memory.readBytes]
  | succ n ih =>
    simp only [Memory.readBytes]
    constructor
    · intro ⟨bs, h⟩ j hj
      split at h
      · rename_i b bs' hb hbs
        cases j with
        | zero => exact ⟨b, hb⟩
        | succ j =>
          have := (ih (a + 1)).1 ⟨bs', hbs⟩ j (by omega)
          rwa [show a + 1 + j = a + (j + 1) by omega] at this
      · cases h
    · intro h
      obtain ⟨b, hb⟩ := h 0 (by omega)
      obtain ⟨bs, hbs⟩ := (ih (a + 1)).2 fun j hj => by
        have := h (j + 1) (by omega)
        rwa [show a + (j + 1) = a + 1 + j by omega] at this
      exact ⟨b :: bs, by simp at hb; simp [hb, hbs]⟩

theorem readBytes_length {m : Memory} {a n : Nat} {bs : List Byte} (h : Memory.readBytes m a n = some bs) :
    bs.length = n := by
  induction n generalizing a bs with
  | zero => simp [Memory.readBytes] at h; simp [← h]
  | succ n ih =>
    simp only [Memory.readBytes] at h
    split at h
    · rename_i b bs' _ hbs; cases h; simp [ih hbs]
    · cases h

/-! ### The canonical form -/

theorem wfFrom_write (m : Memory) (lower a : Nat) (v : Byte) (h : Memory.wfFrom lower m = true) (hl : lower ≤ a)
    (ha : a < 4294967296) : Memory.wfFrom lower (Memory.write m a v) = true := by
  induction m generalizing lower with
  | nil => simp [Memory.write, Memory.wfFrom, hl, ha]
  | cons e rest ih =>
    obtain ⟨k, b⟩ := e
    simp only [Memory.wfFrom, Bool.and_eq_true, decide_eq_true_eq] at h
    simp only [Memory.write]
    split
    · simp [Memory.wfFrom, h.2, h.1.2, hl, ha]; omega
    · split
      · subst_vars; simp [Memory.wfFrom, h.2, hl, ha]
      · simp only [Memory.wfFrom, Bool.and_eq_true, decide_eq_true_eq]
        exact ⟨h.1, ih _ h.2 (by omega)⟩

/-- Storing one byte within the address space keeps the canonical form. -/
theorem wf_write (m : Memory) (a : Nat) (v : Byte) (h : Memory.wf m = true) (ha : a < 4294967296) :
    Memory.wf (Memory.write m a v) = true := wfFrom_write m 0 a v h (Nat.zero_le _) ha

/-- Storing bytes within the address space keeps the canonical form. -/
theorem wf_writeBytes (m : Memory) (a : Nat) (bs : List Byte) (h : Memory.wf m = true)
    (ha : a + bs.length ≤ 4294967296) : Memory.wf (Memory.writeBytes m a bs) = true := by
  induction bs generalizing m a with
  | nil => exact h
  | cons b bs ih =>
    simp only [List.length_cons] at ha
    exact ih _ _ (wf_write m a b h (by omega)) (by omega)

/-! ### Bytes joined and split -/

@[simp] theorem length_splitBytes (e : Endian) (n : Nat) (v : BitVec (8 * n)) : (splitBytes e n v).length = n := by
  cases e <;> simp [splitBytes]

/-- Joining the bytes of a value in the order they were split gives the value, for the sizes in use (R46). -/
theorem joinBytes_splitBytes (e : Endian) (n : Nat) (v : BitVec (8 * n)) (hn : n = 1 ∨ n = 2 ∨ n = 4) :
    joinBytes e n (splitBytes e n v) = v := by
  have h : ∀ n (v : BitVec (8 * n)), n = 1 ∨ n = 2 ∨ n = 4 →
      BitVec.ofNat (8 * n) (bytesToNat ((List.range n).map (byteOf v)).reverse) = v := by
    intro n v hn
    apply BitVec.eq_of_toNat_eq
    rcases hn with rfl | rfl | rfl <;>
      simp [bytesToNat, byteOf, List.range, List.range.loop, BitVec.extractLsb'_toNat, Nat.shiftRight_eq_div_pow] <;>
      have := v.isLt <;> omega
  cases e <;> simpa [joinBytes, splitBytes, mostSignificantFirst] using h n v hn

end Sys2Proof.Machine
end

