-- ==== Sys2Proof/Laws/State.lean ====
section
/-! SUPPORT. One lemma per field per state update, and reading a register after each update. -/

namespace Sys2Proof.Machine

variable (s : State) (r q : RegNo) (v w : Word)

@[simp] theorem setReg_regs : (s.setReg r v).regs = updateRegs s.regs r v := rfl
@[simp] theorem setReg_hi : (s.setReg r v).hi = s.hi := rfl
@[simp] theorem setReg_lo : (s.setReg r v).lo = s.lo := rfl
@[simp] theorem setReg_pc : (s.setReg r v).pc = s.pc := rfl
@[simp] theorem setReg_mem : (s.setReg r v).mem = s.mem := rfl
@[simp] theorem setReg_platform : (s.setReg r v).platform = s.platform := rfl
@[simp] theorem setReg_trapEnv : (s.setReg r v).trapEnv = s.trapEnv := rfl
@[simp] theorem setReg_traps : (s.setReg r v).traps = s.traps := rfl
@[simp] theorem setReg_draws : (s.setReg r v).draws = s.draws := rfl

@[simp] theorem setHiLo_regs : (s.setHiLo v w).regs = s.regs := rfl
@[simp] theorem setHiLo_hi : (s.setHiLo v w).hi = v := rfl
@[simp] theorem setHiLo_lo : (s.setHiLo v w).lo = w := rfl
@[simp] theorem setHiLo_pc : (s.setHiLo v w).pc = s.pc := rfl
@[simp] theorem setHiLo_mem : (s.setHiLo v w).mem = s.mem := rfl
@[simp] theorem setHiLo_platform : (s.setHiLo v w).platform = s.platform := rfl
@[simp] theorem setHiLo_trapEnv : (s.setHiLo v w).trapEnv = s.trapEnv := rfl
@[simp] theorem setHiLo_traps : (s.setHiLo v w).traps = s.traps := rfl
@[simp] theorem setHiLo_draws : (s.setHiLo v w).draws = s.draws := rfl

@[simp] theorem setPc_regs : (s.setPc v).regs = s.regs := rfl
@[simp] theorem setPc_hi : (s.setPc v).hi = s.hi := rfl
@[simp] theorem setPc_lo : (s.setPc v).lo = s.lo := rfl
@[simp] theorem setPc_pc : (s.setPc v).pc = v := rfl
@[simp] theorem setPc_mem : (s.setPc v).mem = s.mem := rfl
@[simp] theorem setPc_platform : (s.setPc v).platform = s.platform := rfl
@[simp] theorem setPc_trapEnv : (s.setPc v).trapEnv = s.trapEnv := rfl
@[simp] theorem setPc_traps : (s.setPc v).traps = s.traps := rfl
@[simp] theorem setPc_draws : (s.setPc v).draws = s.draws := rfl

@[simp] theorem advance_regs : s.advance.regs = s.regs := rfl
@[simp] theorem advance_hi : s.advance.hi = s.hi := rfl
@[simp] theorem advance_lo : s.advance.lo = s.lo := rfl
@[simp] theorem advance_pc : s.advance.pc = s.pc + 4#32 := rfl
@[simp] theorem advance_mem : s.advance.mem = s.mem := rfl
@[simp] theorem advance_platform : s.advance.platform = s.platform := rfl
@[simp] theorem advance_trapEnv : s.advance.trapEnv = s.trapEnv := rfl
@[simp] theorem advance_traps : s.advance.traps = s.traps := rfl
@[simp] theorem advance_draws : s.advance.draws = s.draws := rfl

variable (a : Arch)

@[simp] theorem resume_toArch : (resume s a).toArch = a := rfl
@[simp] theorem resume_regs : (resume s a).regs = a.regs := rfl
@[simp] theorem resume_hi : (resume s a).hi = a.hi := rfl
@[simp] theorem resume_lo : (resume s a).lo = a.lo := rfl
@[simp] theorem resume_pc : (resume s a).pc = a.pc := rfl
@[simp] theorem resume_mem : (resume s a).mem = a.mem := rfl
@[simp] theorem resume_platform : (resume s a).platform = s.platform := rfl
@[simp] theorem resume_trapEnv : (resume s a).trapEnv = s.trapEnv := rfl
@[simp] theorem resume_traps : (resume s a).traps = s.traps + 1 := rfl
@[simp] theorem resume_draws : (resume s a).draws = s.draws := rfl

/-! ### Registers -/

@[simp] theorem getReg_zero : s.getReg 0 = 0#32 := rfl

theorem getReg_eq_of_regs {s t : State} (h : t.regs = s.regs) : t.getReg q = s.getReg q := by
  simp only [State.getReg, h]

@[simp] theorem getReg_setHiLo : (s.setHiLo v w).getReg q = s.getReg q := rfl
@[simp] theorem getReg_setPc : (s.setPc v).getReg q = s.getReg q := rfl
@[simp] theorem getReg_advance : s.advance.getReg q = s.getReg q := rfl
@[simp] theorem getReg_withMem (m : Memory) : State.getReg { s with mem := m } q = s.getReg q := rfl
@[simp] theorem getReg_withTraps (n : Nat) : State.getReg { s with traps := n } q = s.getReg q := rfl
@[simp] theorem getReg_withDraws (n : Nat) : State.getReg { s with draws := n } q = s.getReg q := rfl

/-- Reading a register after a write: the written value at the register written, unless that is register 0. -/
theorem getReg_setReg : (s.setReg r v).getReg q = if q = r ∧ r ≠ 0 then v else s.getReg q := by
  simp only [State.getReg, State.setReg, updateRegs]
  by_cases hr : r = 0
  · simp [hr]
  · by_cases hq : q = 0
    · subst hq; simp [hr, Ne.symm hr]
    · have h1 : (r.val - 1 = q.val - 1) ↔ q = r := by
        have := r.isLt; have := q.isLt
        rw [Fin.ext_iff] at *; simp at hr hq
        constructor <;> intro <;> omega
      simp [hr, hq, Vector.getElem_set, h1]

@[simp] theorem getReg_setReg_same (hr : r ≠ 0) : (s.setReg r v).getReg r = v := by simp [getReg_setReg, hr]

theorem getReg_setReg_of_ne (h : q ≠ r) : (s.setReg r v).getReg q = s.getReg q := by simp [getReg_setReg, h]

/-- A write to register 0 is discarded. -/
@[simp] theorem setReg_zero : s.setReg 0 v = s := rfl

end Sys2Proof.Machine
end

