-- ==== Sys2Proof/Laws/Ops.lean ====
section
/-! SUPPORT. For each shared operation, what it can answer, said once. -/

namespace Sys2Proof.Machine

/-! ### Accesses -/

/-- An access meets no exception exactly when it is aligned and mapped. -/
theorem accessException_eq_none_iff (s : State) (a : Word) (n : Nat) (kind : AccessKind) :
    accessException s a n kind = none ↔ aligned a n = true ∧ Platform.mapped s.platform a n kind = true := by
  unfold accessException; split_ifs <;> simp_all

theorem accessException_of_misaligned {s : State} {a : Word} {n : Nat} {kind : AccessKind} (h : aligned a n = false) :
    accessException s a n kind = some (.addressError a kind) := by simp [accessException, h]

theorem accessException_of_unmapped {s : State} {a : Word} {n : Nat} {kind : AccessKind} (h : aligned a n = true)
    (hm : Platform.mapped s.platform a n kind = false) :
    accessException s a n kind = some (.accessFault a kind) := by simp [accessException, h, hm]

/-- A read answers a value exactly when the access is aligned and mapped and its bytes hold values. -/
theorem memRead_eq_ok_iff (s : State) (a : Word) (n : Nat) (kind : AccessKind) (v : BitVec (8 * n)) :
    memRead s a n kind = .ok v ↔
      aligned a n = true ∧ Platform.mapped s.platform a n kind = true ∧
        ∃ bs, Memory.readBytes s.mem a.toNat n = some bs ∧ v = joinBytes s.platform.endian n bs := by
  unfold memRead
  split
  · rename_i e he
    have h := (accessException_eq_none_iff s a n kind).not.1 (by simp [he])
    simp only [reduceCtorEq, false_iff]
    exact fun ⟨h1, h2, _⟩ => h ⟨h1, h2⟩
  · rename_i he
    obtain ⟨h1, h2⟩ := (accessException_eq_none_iff s a n kind).1 he
    split
    · rename_i bs hbs
      exact ⟨fun h => ⟨h1, h2, bs, hbs, (Except.ok.inj h).symm⟩, fun ⟨_, _, bs', hbs', hv⟩ => by
        rw [hbs] at hbs'; cases hbs'; rw [hv]⟩
    · rename_i hbs
      exact ⟨fun h => (by cases h), fun ⟨_, _, bs', hbs', _⟩ => by rw [hbs] at hbs'; cases hbs'⟩

/-- A read that answers no value answers one of three faults. -/
theorem memRead_error {s : State} {a : Word} {n : Nat} {kind : AccessKind} {e : Fault} (h : memRead s a n kind = .error e) :
    (e = .addressError a kind ∧ aligned a n = false) ∨
      (e = .accessFault a kind ∧ aligned a n = true ∧ Platform.mapped s.platform a n kind = false) ∨
      (e = .unwrittenByte a kind ∧ aligned a n = true ∧ Platform.mapped s.platform a n kind = true ∧
        Memory.readBytes s.mem a.toNat n = none) := by
  unfold memRead accessException at h
  by_cases ha : aligned a n = true <;> by_cases hm : Platform.mapped s.platform a n kind = true <;>
    simp [ha, hm] at h <;> try simp_all
  split at h <;> simp_all

/-- A write answers the state with exactly the bytes stored, when the access is aligned and mapped. -/
theorem memWrite_eq_ok_iff (s t : State) (a : Word) (n : Nat) (v : BitVec (8 * n)) :
    memWrite s a n v = .ok t ↔
      aligned a n = true ∧ Platform.mapped s.platform a n .store = true ∧
        t = { s with mem := Memory.writeBytes s.mem a.toNat (splitBytes s.platform.endian n v) } := by
  unfold memWrite
  split
  · rename_i e he
    have h := (accessException_eq_none_iff s a n .store).not.1 (by simp [he])
    simp only [reduceCtorEq, false_iff]
    exact fun ⟨h1, h2, _⟩ => h ⟨h1, h2⟩
  · rename_i he
    obtain ⟨h1, h2⟩ := (accessException_eq_none_iff s a n .store).1 he
    simp [h1, h2, eq_comm]

/-- The count of resumed traps takes no part in a fetch. -/
@[simp] theorem fetch_withTraps (s : State) (n : Nat) : fetch { s with traps := n } = fetch s := rfl

/-- An aligned object of a size in use does not cross the top of the address space (R41). -/
theorem aligned_end {a : Word} {n : Nat} (h : aligned a n = true) (hn : n = 1 ∨ n = 2 ∨ n = 4) :
    a.toNat + n ≤ 4294967296 := by
  have := a.isLt
  rcases hn with rfl | rfl | rfl <;> simp [aligned] at h <;> omega

/-! ### Exceptions -/

/-- The environment's answers to a trap: those of the lines that cover its code and state. -/
theorem mem_answersTo (env : List TrapRule) (code : Nat) (a : Arch) (o : Option Arch) :
    o ∈ answersTo env code a ↔ ∃ rule ∈ env, rule.covers code a = true ∧ rule.answer.resumption a = o := by
  simp [answersTo, and_assoc]

/-- The choice is one of the answers, and `stop` where there is none. -/
theorem chooseAnswer_mem (n : Nat) (answers : List (Option Arch)) :
    (answers = [] ∧ chooseAnswer n answers = none) ∨ chooseAnswer n answers ∈ answers := by
  match answers with
  | [] => exact .inl ⟨rfl, rfl⟩
  | [o] => exact .inr (List.mem_singleton.2 rfl)
  | o :: p :: rest =>
    have h : Config.trapChoice n % (o :: p :: rest).length < (o :: p :: rest).length := Nat.mod_lt _ (by simp)
    refine .inr ?_
    simp only [chooseAnswer, List.getD_eq_getElem _ _ h]
    exact List.getElem_mem h

/-- An exception gives a next state only for a trap that the environment resumes, with the record chosen. -/
theorem raise_eq_next_iff (e : Fault) (s t : State) :
    raise e s = .next t ↔ ∃ code a, e = .trap code ∧
      chooseAnswer s.traps (answersTo s.trapEnv code s.toArch) = some a ∧ t = resume s a := by
  cases e <;> simp only [raise] <;> try simp
  split
  · rename_i a h; simp [h, eq_comm]
  · rename_i h; simp [h]

theorem raise_of_not_trap {e : Fault} (s : State) (h : ∀ code, e ≠ .trap code) : raise e s = .fault e := by
  cases e <;> simp_all [raise]

/-! ### The shapes of instructions -/

/-- `finishUnlessOverflow` finishes, or overflows under the `fault` policy. -/
theorem finishUnlessOverflow_cases (s : State) (o : Bool) (r : RegNo) (v : Word) :
    (finishUnlessOverflow s o r v = .fault .integerOverflow ∧ s.platform.ovf = .fault ∧ o = true) ∨
      (finishUnlessOverflow s o r v = finish s r v ∧ ¬ (s.platform.ovf = .fault ∧ o = true)) := by
  unfold finishUnlessOverflow
  split_ifs with h
  · exact .inl ⟨rfl, h⟩
  · exact .inr ⟨rfl, h⟩

/-- A load that goes on has read its bytes and written its register. -/
theorem load_eq_next_iff (s t : State) (rt : RegNo) (ea : Word) (n : Nat) (ext : BitVec (8 * n) → Word) :
    load s rt ea n ext = .next t ↔
      ∃ v, memRead s ea n .load = .ok v ∧ t = (s.setReg rt (ext v)).advance := by
  unfold load
  split
  · rename_i v hv; simp [finish, hv, eq_comm]
  · rename_i e he
    have h := memRead_error he
    simp only [he, reduceCtorEq, false_and, exists_false, iff_false, raise_eq_next_iff]
    rintro ⟨code, a, rfl, -⟩
    simp at h

/-- A store that goes on has stored its bytes. -/
theorem store_eq_next_iff (s t : State) (ea : Word) (n : Nat) (v : BitVec (8 * n)) :
    store s ea n v = .next t ↔ ∃ u, memWrite s ea n v = .ok u ∧ t = u.advance := by
  unfold store
  split
  · rename_i u hu; simp [hu, eq_comm]
  · rename_i e he
    simp only [he, reduceCtorEq, false_and, exists_false, iff_false, raise_eq_next_iff]
    rintro ⟨code, a, rfl, -⟩
    unfold memWrite accessException at he
    split_ifs at he <;> simp_all

/-- A branch goes to its target or to the next instruction. -/
theorem branchIf_eq (s : State) (c : Bool) (imm : BitVec 16) :
    branchIf s c imm = .next (s.setPc (if c then branchTarget s.pc imm else s.pc + 4#32)) := by
  cases c <;> rfl

/-- What a step that gives a next state has done: fetched, and either run the decoded instruction or nothing else. -/
theorem step_eq_next {s t : State} (h : step s = .next t) :
    ∃ w i, fetch s = .ok w ∧ decode w = .ok i ∧ exec i s = .next t := by
  unfold step at h
  split at h
  · rename_i e he
    obtain ⟨code, a, rfl, -⟩ := (raise_eq_next_iff _ _ _).1 h
    rcases memRead_error he with h | h | h <;> simp at h
  · rename_i w hw
    split at h
    · obtain ⟨code, a, h, -⟩ := (raise_eq_next_iff _ _ _).1 h
      cases h
    · rename_i i hi; exact ⟨w, i, hw, hi, h⟩

end Sys2Proof.Machine
end

