-- ==== Sys2Proof/Laws/PerInstr.lean ====
section
/-! SUPPORT. Families of facts about every instruction, one lemma per constructor. -/

/-- The word an instruction is encoded as lies in the instruction's row of the opcode map: under the row's mask it is the
row's match value (R70). -/
def Sys2Proof.Laws.EncodedWordMatchesRow.Statement (i : Sys2Proof.Instr) : Prop :=
  Sys2Proof.encode i &&& (Sys2Proof.Instr.row i).1 = (Sys2Proof.Instr.row i).2

namespace Sys2Proof.Laws.EncodedWordMatchesRow

theorem add (rd rs rt : RegNo) : Statement (.add rd rs rt) := regWord_and_mask ..
theorem addu (rd rs rt : RegNo) : Statement (.addu rd rs rt) := regWord_and_mask ..
theorem addi (rt rs : RegNo) (imm : BitVec 16) : Statement (.addi rt rs imm) := immWord_and_mask ..
theorem addiu (rt rs : RegNo) (imm : BitVec 16) : Statement (.addiu rt rs imm) := immWord_and_mask ..
theorem and (rd rs rt : RegNo) : Statement (.and rd rs rt) := regWord_and_mask ..
theorem andi (rt rs : RegNo) (imm : BitVec 16) : Statement (.andi rt rs imm) := immWord_and_mask ..
theorem div (rs rt : RegNo) : Statement (.div rs rt) := regWord_and_mask ..
theorem divu (rs rt : RegNo) : Statement (.divu rs rt) := regWord_and_mask ..
theorem mult (rs rt : RegNo) : Statement (.mult rs rt) := regWord_and_mask ..
theorem multu (rs rt : RegNo) : Statement (.multu rs rt) := regWord_and_mask ..
theorem nor (rd rs rt : RegNo) : Statement (.nor rd rs rt) := regWord_and_mask ..
theorem or (rd rs rt : RegNo) : Statement (.or rd rs rt) := regWord_and_mask ..
theorem ori (rt rs : RegNo) (imm : BitVec 16) : Statement (.ori rt rs imm) := immWord_and_mask ..
theorem sll (rd rt : RegNo) (sa : Nat) : Statement (.sll rd rt sa) := regWord_and_mask ..
theorem sllv (rd rt rs : RegNo) : Statement (.sllv rd rt rs) := regWord_and_mask ..
theorem sra (rd rt : RegNo) (sa : Nat) : Statement (.sra rd rt sa) := regWord_and_mask ..
theorem srav (rd rt rs : RegNo) : Statement (.srav rd rt rs) := regWord_and_mask ..
theorem srl (rd rt : RegNo) (sa : Nat) : Statement (.srl rd rt sa) := regWord_and_mask ..
theorem srlv (rd rt rs : RegNo) : Statement (.srlv rd rt rs) := regWord_and_mask ..
theorem sub (rd rs rt : RegNo) : Statement (.sub rd rs rt) := regWord_and_mask ..
theorem subu (rd rs rt : RegNo) : Statement (.subu rd rs rt) := regWord_and_mask ..
theorem xor (rd rs rt : RegNo) : Statement (.xor rd rs rt) := regWord_and_mask ..
theorem xori (rt rs : RegNo) (imm : BitVec 16) : Statement (.xori rt rs imm) := immWord_and_mask ..
theorem lhi (rt : RegNo) (imm : BitVec 16) : Statement (.lhi rt imm) := immWord_and_mask ..
theorem llo (rt : RegNo) (imm : BitVec 16) : Statement (.llo rt imm) := immWord_and_mask ..
theorem slt (rd rs rt : RegNo) : Statement (.slt rd rs rt) := regWord_and_mask ..
theorem sltu (rd rs rt : RegNo) : Statement (.sltu rd rs rt) := regWord_and_mask ..
theorem slti (rt rs : RegNo) (imm : BitVec 16) : Statement (.slti rt rs imm) := immWord_and_mask ..
theorem sltiu (rt rs : RegNo) (imm : BitVec 16) : Statement (.sltiu rt rs imm) := immWord_and_mask ..
theorem beq (rs rt : RegNo) (imm : BitVec 16) : Statement (.beq rs rt imm) := immWord_and_mask ..
theorem bgtz (rs : RegNo) (imm : BitVec 16) : Statement (.bgtz rs imm) := immWord_and_mask ..
theorem blez (rs : RegNo) (imm : BitVec 16) : Statement (.blez rs imm) := immWord_and_mask ..
theorem bne (rs rt : RegNo) (imm : BitVec 16) : Statement (.bne rs rt imm) := immWord_and_mask ..
theorem j (off : BitVec 26) : Statement (.j off) := jumpWord_and_mask ..
theorem jal (off : BitVec 26) : Statement (.jal off) := jumpWord_and_mask ..
theorem jalr (rs : RegNo) : Statement (.jalr rs) := regWord_and_mask ..
theorem jr (rs : RegNo) : Statement (.jr rs) := regWord_and_mask ..
theorem lb (rt : RegNo) (imm : BitVec 16) (rs : RegNo) : Statement (.lb rt imm rs) := immWord_and_mask ..
theorem lbu (rt : RegNo) (imm : BitVec 16) (rs : RegNo) : Statement (.lbu rt imm rs) := immWord_and_mask ..
theorem lh (rt : RegNo) (imm : BitVec 16) (rs : RegNo) : Statement (.lh rt imm rs) := immWord_and_mask ..
theorem lhu (rt : RegNo) (imm : BitVec 16) (rs : RegNo) : Statement (.lhu rt imm rs) := immWord_and_mask ..
theorem lw (rt : RegNo) (imm : BitVec 16) (rs : RegNo) : Statement (.lw rt imm rs) := immWord_and_mask ..
theorem sb (rt : RegNo) (imm : BitVec 16) (rs : RegNo) : Statement (.sb rt imm rs) := immWord_and_mask ..
theorem sh (rt : RegNo) (imm : BitVec 16) (rs : RegNo) : Statement (.sh rt imm rs) := immWord_and_mask ..
theorem sw (rt : RegNo) (imm : BitVec 16) (rs : RegNo) : Statement (.sw rt imm rs) := immWord_and_mask ..
theorem mfhi (rd : RegNo) : Statement (.mfhi rd) := regWord_and_mask ..
theorem mflo (rd : RegNo) : Statement (.mflo rd) := regWord_and_mask ..
theorem mthi (rs : RegNo) : Statement (.mthi rs) := regWord_and_mask ..
theorem mtlo (rs : RegNo) : Statement (.mtlo rs) := regWord_and_mask ..
theorem trap (code : Nat) : Statement (.trap code) := jumpWord_and_mask ..

end Sys2Proof.Laws.EncodedWordMatchesRow
end

