-- ==== Sys2Proof/Tests/Slice0.lean ====
section
/-! SUPPORT. The model's own tests. The words and the results are those of the spec: the "Example" lines of R100 to R190 and
the vectors of 95_test_vectors.md, named by their ids. No value here is the model's own answer. Then one witness for
every hypothesis of the statements. -/

namespace Sys2Proof.Tests

open Sys2Proof.Machine

/-! ### WellFormed: each check refuses a term that only it can refuse, and accepts its bound (R76, R81) -/

theorem test_sll_shift_bound : (Instr.sll 3 2 32).wellFormed = false ∧ (Instr.sll 3 2 31).wellFormed = true := by decide

theorem test_sra_shift_bound : (Instr.sra 3 2 32).wellFormed = false ∧ (Instr.sra 3 2 31).wellFormed = true := by decide

theorem test_srl_shift_bound : (Instr.srl 3 2 32).wellFormed = false ∧ (Instr.srl 3 2 31).wellFormed = true := by decide

theorem test_trap_code_bound :
    (Instr.trap 67108864).wellFormed = false ∧ (Instr.trap 67108863).wellFormed = true := by decide

/-! ### Decoding: the words of the "Example" lines, every constructor once -/

theorem test_decode_add : decode 0x00221820#32 = .ok (.add 3 1 2) := by decide -- R100

theorem test_decode_addu : decode 0x00221821#32 = .ok (.addu 3 1 2) := by decide -- R101

theorem test_decode_addi : decode 0x2022FFFF#32 = .ok (.addi 2 1 0xFFFF#16) := by decide -- R102

theorem test_decode_addiu : decode 0x24228000#32 = .ok (.addiu 2 1 0x8000#16) := by decide -- R103

theorem test_decode_and : decode 0x00221824#32 = .ok (.and 3 1 2) := by decide -- R104

theorem test_decode_andi : decode 0x3022FF00#32 = .ok (.andi 2 1 0xFF00#16) := by decide -- R105

theorem test_decode_div : decode 0x0022001A#32 = .ok (.div 1 2) := by decide -- R106

theorem test_decode_divu : decode 0x0022001B#32 = .ok (.divu 1 2) := by decide -- R107

theorem test_decode_mult : decode 0x00220018#32 = .ok (.mult 1 2) := by decide -- R108

theorem test_decode_multu : decode 0x00220019#32 = .ok (.multu 1 2) := by decide -- R109

theorem test_decode_nor : decode 0x00221827#32 = .ok (.nor 3 1 2) := by decide -- R110

theorem test_decode_or : decode 0x00221825#32 = .ok (.or 3 1 2) := by decide -- R111

theorem test_decode_ori : decode 0x34228000#32 = .ok (.ori 2 1 0x8000#16) := by decide -- R112

theorem test_decode_sll : decode 0x00021900#32 = .ok (.sll 3 2 4) := by decide -- R113

theorem test_decode_sllv : decode 0x00221804#32 = .ok (.sllv 3 2 1) := by decide -- R114

theorem test_decode_sra : decode 0x00021903#32 = .ok (.sra 3 2 4) := by decide -- R115

theorem test_decode_srav : decode 0x00221807#32 = .ok (.srav 3 2 1) := by decide -- R116

theorem test_decode_srl : decode 0x00021902#32 = .ok (.srl 3 2 4) := by decide -- R117

theorem test_decode_srlv : decode 0x00221806#32 = .ok (.srlv 3 2 1) := by decide -- R118

theorem test_decode_sub : decode 0x00221822#32 = .ok (.sub 3 1 2) := by decide -- R119

theorem test_decode_subu : decode 0x00221823#32 = .ok (.subu 3 1 2) := by decide -- R120

theorem test_decode_xor : decode 0x00221826#32 = .ok (.xor 3 1 2) := by decide -- R121

theorem test_decode_xori : decode 0x3822FFFF#32 = .ok (.xori 2 1 0xFFFF#16) := by decide -- R122

theorem test_decode_lhi : decode 0x64011234#32 = .ok (.lhi 1 0x1234#16) := by decide -- R130

theorem test_decode_llo : decode 0x60015678#32 = .ok (.llo 1 0x5678#16) := by decide -- R131

theorem test_decode_slt : decode 0x0022182A#32 = .ok (.slt 3 1 2) := by decide -- R135

theorem test_decode_sltu : decode 0x0022182B#32 = .ok (.sltu 3 1 2) := by decide -- R136

theorem test_decode_slti : decode 0x2822FFFF#32 = .ok (.slti 2 1 0xFFFF#16) := by decide -- R137

theorem test_decode_sltiu : decode 0x2C22FFFF#32 = .ok (.sltiu 2 1 0xFFFF#16) := by decide -- R138

theorem test_decode_beq : decode 0x10220003#32 = .ok (.beq 1 2 3#16) := by decide -- R140

theorem test_decode_bgtz : decode 0x1C20FFFD#32 = .ok (.bgtz 1 0xFFFD#16) := by decide -- R141

theorem test_decode_blez : decode 0x18200001#32 = .ok (.blez 1 1#16) := by decide -- R142

theorem test_decode_bne : decode 0x1422FFFE#32 = .ok (.bne 1 2 0xFFFE#16) := by decide -- R143

theorem test_decode_j : decode 0x08000004#32 = .ok (.j 4#26) := by decide -- R150

theorem test_decode_jal : decode 0x0C000040#32 = .ok (.jal 0x40#26) := by decide -- R151

theorem test_decode_jalr : decode 0x00A00009#32 = .ok (.jalr 5) := by decide -- R152

theorem test_decode_jr : decode 0x03E00008#32 = .ok (.jr 31) := by decide -- R153

theorem test_decode_lb : decode 0x8022FFFF#32 = .ok (.lb 2 0xFFFF#16 1) := by decide -- R160

theorem test_decode_lbu : decode 0x90220003#32 = .ok (.lbu 2 3#16 1) := by decide -- R161

theorem test_decode_lh : decode 0x84220002#32 = .ok (.lh 2 2#16 1) := by decide -- R162

theorem test_decode_lhu : decode 0x94220002#32 = .ok (.lhu 2 2#16 1) := by decide -- R163

theorem test_decode_lw : decode 0x8C220008#32 = .ok (.lw 2 8#16 1) := by decide -- R164

theorem test_decode_sb : decode 0xA0220001#32 = .ok (.sb 2 1#16 1) := by decide -- R170

theorem test_decode_sh : decode 0xA422FFFE#32 = .ok (.sh 2 0xFFFE#16 1) := by decide -- R171

theorem test_decode_sw : decode 0xAC220000#32 = .ok (.sw 2 0#16 1) := by decide -- R172

theorem test_decode_mfhi : decode 0x00001810#32 = .ok (.mfhi 3) := by decide -- R180

theorem test_decode_mflo : decode 0x00001812#32 = .ok (.mflo 3) := by decide -- R181

theorem test_decode_mthi : decode 0x00200011#32 = .ok (.mthi 1) := by decide -- R182

theorem test_decode_mtlo : decode 0x00200013#32 = .ok (.mtlo 1) := by decide -- R183

theorem test_decode_trap : decode 0x6800000A#32 = .ok (.trap 10) := by decide -- R190

/-- Words that are no instruction (X1, X4, X5, X7): each rejected by name. -/
theorem test_decode_unassigned :
    (decode 0x0000000C#32).toOption = none ∧ (decode 0x00221829#32).toOption = none ∧
      (decode 0x04000000#32).toOption = none ∧ (decode 0xFFFFFFFF#32).toOption = none := by decide

/-- The host's view of the decoder: the table's bits in, the instruction out; other widths are refused. -/
theorem test_decodeTableWord :
    decodeTableWord 32 0x00221820 = some (.add 3 1 2) ∧ decodeTableWord 32 0x0000000C = none := by decide

/-! ### Helpers: a small state before the step, and what a step's answer holds -/

/-- `pc` = 0x100, `x[1]`, `x[2]` as given, `hi` = 0x11111111, `lo` = 0x22222222, four bytes at 0x1000. -/
def before (x1 x2 : Word) (bytes : List Byte := [0x80#8, 0x7F#8, 0xFE#8, 0x01#8]) : State :=
  { (State.reset.setReg 1 x1).setReg 2 x2 with
    pc := 0x100#32, hi := 0x11111111#32, lo := 0x22222222#32, mem := Memory.writeBytes [] 0x1000 bytes }

/-- The same state on another platform. -/
def onPlatform (s : State) (e : Endian) (o : OvfPolicy) (holes : List Hole) : State :=
  { s with platform := { endian := e, ovf := o, holes := holes } }

/-- One step with the word placed at `pc`. -/
def run (w : Nat) (s : State) : Result := step (s.withFetchWord 32 w)

/-- Register `r` and `pc` of the next state. -/
def regPc (r : RegNo) : Result → Option (Word × Word)
  | .next t => some (t.getReg r, t.pc)
  | _ => none

/-- `hi`, `lo` and `pc` of the next state. -/
def hiLoPc : Result → Option (Word × Word × Word)
  | .next t => some (t.hi, t.lo, t.pc)
  | _ => none

/-- The `n` bytes at `a` in the next state. -/
def bytesAt (a n : Nat) : Result → Option (List Byte)
  | .next t => Memory.readBytes t.mem a n
  | _ => none

/-- The exception that ends the run. -/
def faultOf : Result → Option Fault
  | .fault e => some e
  | _ => none

/-- The machine goes on. -/
def goesOn : Result → Bool
  | .next _ => true
  | _ => false

/-- Every access at 0x2000 of any size, and the fetch at 0x3000, is refused. -/
def someHoles : List Hole :=
  [{ first := 0x2000, last := 0x2000, sizes := [1, 2, 4], kinds := [.load, .store] },
   { first := 0x3000, last := 0x3000, sizes := [4], kinds := [.fetch] }]

/-! ### Steps -/

theorem test_add_wraps :
    regPc 3 (run 0x00221820 (before 0x7FFFFFFF#32 1#32)) = some (0x80000000#32, 0x104#32) := by decide -- A3

theorem test_add_overflow_raises :
    faultOf (run 0x00221820 (onPlatform (before 0x7FFFFFFF#32 1#32) .big .fault [])) = some .integerOverflow := by decide -- A4

theorem test_addu_never_raises :
    regPc 3 (run 0x00221821 (onPlatform (before 0x7FFFFFFF#32 1#32) .big .fault [])) =
      some (0x80000000#32, 0x104#32) := by decide -- A8

theorem test_addi_extends_sign :
    regPc 2 (run 0x2022FFFF (before 0x80000000#32 0#32)) = some (0x7FFFFFFF#32, 0x104#32) := by decide -- A10

theorem test_addi_overflow_raises :
    faultOf (run 0x2022FFFF (onPlatform (before 0x80000000#32 0#32) .big .fault [])) = some .integerOverflow := by decide -- A10

theorem test_addiu_extends_sign :
    regPc 2 (run 0x24228000 (before 0#32 0#32)) = some (0xFFFF8000#32, 0x104#32) := by decide -- A12

theorem test_addiu_never_raises :
    regPc 2 (run 0x24220001 (onPlatform (before 0x7FFFFFFF#32 0#32) .big .fault [])) =
      some (0x80000000#32, 0x104#32) := by decide -- A13

theorem test_and :
    regPc 3 (run 0x00221824 (before 0xFF00FF00#32 0x0FF00FF0#32)) = some (0x0F000F00#32, 0x104#32) := by decide -- A14

theorem test_or :
    regPc 3 (run 0x00221825 (before 0xFF00FF00#32 0x0FF00FF0#32)) = some (0xFFF0FFF0#32, 0x104#32) := by decide -- A15

theorem test_xor :
    regPc 3 (run 0x00221826 (before 0xFF00FF00#32 0x0FF00FF0#32)) = some (0xF0F0F0F0#32, 0x104#32) := by decide -- A16

theorem test_nor :
    regPc 3 (run 0x00221827 (before 0xFF00FF00#32 0x0FF00FF0#32)) = some (0x000F000F#32, 0x104#32) := by decide -- A17

theorem test_andi_clears_upper :
    regPc 2 (run 0x3022FF00 (before 0x12345678#32 0#32)) = some (0x00005600#32, 0x104#32) := by decide -- A19

theorem test_ori_extends_zero :
    regPc 2 (run 0x34228000 (before 0x12340000#32 0#32)) = some (0x12348000#32, 0x104#32) := by decide -- A20

theorem test_xori_writes_t :
    regPc 2 (run 0x3822FFFF (before 0x12345678#32 0#32)) = some (0x1234A987#32, 0x104#32) := by decide -- A21

theorem test_sll :
    regPc 3 (run 0x00021900 (before 0#32 0x80000001#32)) = some (0x00000010#32, 0x104#32) := by decide -- A22

theorem test_srl_zero_fill :
    regPc 3 (run 0x00021902 (before 0#32 0x80000001#32)) = some (0x08000000#32, 0x104#32) := by decide -- A25

theorem test_sra_sign_fill :
    regPc 3 (run 0x00021903 (before 0#32 0x80000001#32)) = some (0xF8000000#32, 0x104#32) := by decide -- A26

theorem test_sra_by_31 :
    regPc 3 (run 0x00021FC3 (before 0#32 0x80000000#32)) = some (0xFFFFFFFF#32, 0x104#32) := by decide -- A27

theorem test_sllv_count_36 :
    regPc 3 (run 0x00221804 (before 0x24#32 0x80000001#32)) = some (0x00000010#32, 0x104#32) := by decide -- A30

theorem test_srlv_count_all_ones :
    regPc 3 (run 0x00221806 (before 0xFFFFFFFF#32 0x80000000#32)) = some (0x00000001#32, 0x104#32) := by decide -- A31

theorem test_srav :
    regPc 3 (run 0x00221807 (before 8#32 0xFF000000#32)) = some (0xFFFF0000#32, 0x104#32) := by decide -- A32

theorem test_srav_count_32 :
    regPc 3 (run 0x00221807 (before 0x20#32 0xFF000000#32)) = some (0xFF000000#32, 0x104#32) := by decide -- A33

theorem test_sub_wraps :
    regPc 3 (run 0x00221822 (before 0x80000000#32 1#32)) = some (0x7FFFFFFF#32, 0x104#32) := by decide -- A35

theorem test_sub_overflow_raises :
    faultOf (run 0x00221822 (onPlatform (before 0#32 0x80000000#32) .big .fault [])) = some .integerOverflow := by decide -- A36

theorem test_subu_never_raises :
    regPc 3 (run 0x00221823 (onPlatform (before 0x80000000#32 1#32) .big .fault [])) =
      some (0x7FFFFFFF#32, 0x104#32) := by decide -- A37

theorem test_mult_negative :
    hiLoPc (run 0x00220018 (before 0xFFFFFFFE#32 3#32)) = some (0xFFFFFFFF#32, 0xFFFFFFFA#32, 0x104#32) := by decide -- A40

theorem test_mult_min_squared :
    hiLoPc (run 0x00220018 (before 0x80000000#32 0x80000000#32)) = some (0x40000000#32, 0#32, 0x104#32) := by decide -- A42

theorem test_multu_max_squared :
    hiLoPc (run 0x00220019 (before 0xFFFFFFFF#32 0xFFFFFFFF#32)) = some (0xFFFFFFFE#32, 1#32, 0x104#32) := by decide -- A39

theorem test_div_truncates :
    hiLoPc (run 0x0022001A (before 0xFFFFFFF9#32 2#32)) = some (0xFFFFFFFF#32, 0xFFFFFFFD#32, 0x104#32) := by decide -- A46

theorem test_div_overflow_case :
    hiLoPc (run 0x0022001A (before 0x80000000#32 0xFFFFFFFF#32)) = some (0#32, 0x80000000#32, 0x104#32) := by decide -- A49

theorem test_divu_floors :
    hiLoPc (run 0x0022001B (before 0xFFFFFFF9#32 2#32)) = some (1#32, 0x7FFFFFFC#32, 0x104#32) := by decide -- A51

theorem test_divu_by_zero_goes_on : goesOn (run 0x0020001B (before 5#32 0#32)) = true := by decide -- A53

theorem test_lhi_keeps_lower :
    regPc 1 (run 0x64011234 (before 0xAAAABBBB#32 0#32)) = some (0x1234BBBB#32, 0x104#32) := by decide -- K1

theorem test_lhi_ignores_s :
    regPc 1 (run 0x67E11234 (before 0#32 0#32)) = some (0x12340000#32, 0x104#32) := by decide -- K6

theorem test_llo_keeps_upper :
    regPc 1 (run 0x60015678 (before 0xAAAABBBB#32 0#32)) = some (0xAAAA5678#32, 0x104#32) := by decide -- K2

theorem test_llo_no_sign_extension :
    regPc 1 (run 0x6001FFFF (before 0#32 0#32)) = some (0x0000FFFF#32, 0x104#32) := by decide -- K3

theorem test_slt_signed :
    regPc 3 (run 0x0022182A (before 0x80000000#32 0x7FFFFFFF#32)) = some (1#32, 0x104#32) := by decide -- C4

theorem test_sltu_unsigned :
    regPc 3 (run 0x0022182B (before 0xFFFFFFFF#32 1#32)) = some (0#32, 0x104#32) := by decide -- C2

theorem test_slti_below :
    regPc 2 (run 0x2822FFFF (before 0xFFFFFFFE#32 0#32)) = some (1#32, 0x104#32) := by decide -- C6

theorem test_slti_not_below : regPc 2 (run 0x2822FFFF (before 0#32 0#32)) = some (0#32, 0x104#32) := by decide -- C7

theorem test_sltiu_extends_sign : regPc 2 (run 0x2C22FFFF (before 5#32 0#32)) = some (1#32, 0x104#32) := by decide -- C8

theorem test_sltiu_equal :
    regPc 2 (run 0x2C22FFFF (before 0xFFFFFFFF#32 0#32)) = some (0#32, 0x104#32) := by decide -- C9

theorem test_beq_taken : regPc 1 (run 0x10220003 (before 9#32 9#32)) = some (9#32, 0x110#32) := by decide -- B1

theorem test_beq_not_taken : regPc 1 (run 0x10220003 (before 9#32 8#32)) = some (9#32, 0x104#32) := by decide -- B2

theorem test_bne_not_taken : regPc 1 (run 0x1422FFFE (before 9#32 9#32)) = some (9#32, 0x104#32) := by decide -- B3

theorem test_bne_taken_back : regPc 1 (run 0x1422FFFE (before 9#32 8#32)) = some (9#32, 0xFC#32) := by decide -- B4

theorem test_blez_taken_at_zero : regPc 1 (run 0x18200001 (before 0#32 0#32)) = some (0#32, 0x108#32) := by decide -- B5

theorem test_blez_not_taken : regPc 1 (run 0x18200001 (before 1#32 0#32)) = some (1#32, 0x104#32) := by decide -- B7

theorem test_bgtz_taken_back : regPc 1 (run 0x1C20FFFD (before 1#32 0#32)) = some (1#32, 0xF8#32) := by decide -- B8

theorem test_bgtz_not_taken_negative :
    regPc 1 (run 0x1C20FFFD (before 0xFFFFFFFF#32 0#32)) = some (0xFFFFFFFF#32, 0x104#32) := by decide -- B10

theorem test_j_largest_forward :
    regPc 0 (run 0x09FFFFFF (before 0#32 0#32)) = some (0#32, 0x08000100#32) := by decide -- J3

theorem test_j_largest_backward :
    regPc 0 (run 0x0A000000 (before 0#32 0#32)) = some (0#32, 0xF8000104#32) := by decide -- J4

theorem test_jal_links : regPc 31 (run 0x0C000040 (before 0#32 0#32)) = some (0x104#32, 0x204#32) := by decide -- J5

theorem test_jal_backward : regPc 31 (run 0x0FFFFFFE (before 0#32 0#32)) = some (0x104#32, 0xFC#32) := by decide -- J6

theorem test_jalr_links :
    regPc 31 (run 0x00A03809 ((before 0#32 0#32).setReg 5 0x2000#32)) = some (0x104#32, 0x2000#32) := by decide -- J9

theorem test_jalr_31_links_first :
    regPc 31 (run 0x03E00009 ((before 0#32 0#32).setReg 31 0x2000#32)) = some (0x104#32, 0x104#32) := by decide -- J8

theorem test_jr_misaligned_completes :
    regPc 1 (run 0x00200008 (before 0x206#32 0#32)) = some (0x206#32, 0x206#32) := by decide -- J11

theorem test_jr_zero : regPc 0 (run 0x00000008 (before 0#32 0#32)) = some (0#32, 0#32) := by decide -- J12

theorem test_lb_extends_sign :
    regPc 2 (run 0x80220000 (before 0x1000#32 0#32)) = some (0xFFFFFF80#32, 0x104#32) := by decide -- L9

theorem test_lb_negative_offset :
    regPc 2 (run 0x8022FFFF (before 0x1002#32 0#32)) = some (0x7F#32, 0x104#32) := by decide -- L11

theorem test_lbu_extends_zero :
    regPc 2 (run 0x90220000 (before 0x1000#32 0#32)) = some (0x80#32, 0x104#32) := by decide -- L10

theorem test_lh_big :
    regPc 2 (run 0x84220000 (before 0x1000#32 0#32)) = some (0xFFFF807F#32, 0x104#32) := by decide -- L2

theorem test_lh_little :
    regPc 2 (run 0x84220002 (onPlatform (before 0x1000#32 0#32) .little .wrap [])) =
      some (0x000001FE#32, 0x104#32) := by decide -- L8

theorem test_lhu_big :
    regPc 2 (run 0x94220000 (before 0x1000#32 0#32)) = some (0x0000807F#32, 0x104#32) := by decide -- L3

theorem test_lhu_odd :
    faultOf (run 0x94220003 (before 0x1000#32 0#32)) = some (.addressError 0x1003#32 .load) := by decide -- L19

theorem test_lw_little :
    regPc 2 (run 0x8C220000 (onPlatform (before 0x1000#32 0#32) .little .wrap [])) =
      some (0x01FE7F80#32, 0x104#32) := by decide -- L5

theorem test_lw_unmapped :
    faultOf (run 0x8C220000 (onPlatform (before 0x2000#32 0#32) .big .wrap someHoles)) =
      some (.accessFault 0x2000#32 .load) := by decide -- L22

theorem test_sb_one_byte :
    bytesAt 0x1000 4 (run 0xA0220001 (before 0x1000#32 0x89ABCDEF#32 [0x11#8, 0x22#8, 0x33#8, 0x44#8])) =
    some [0x11#8, 0xEF#8, 0x33#8, 0x44#8] := by decide -- S5

theorem test_sh_big :
    bytesAt 0x1000 4 (run 0xA4220002 (before 0x1000#32 0x89ABCDEF#32 [0x11#8, 0x22#8, 0x33#8, 0x44#8])) =
    some [0x11#8, 0x22#8, 0xCD#8, 0xEF#8] := by decide -- S2

theorem test_sh_odd : faultOf (run 0xA4220001 (before 0x1000#32 0x89ABCDEF#32 [0x11#8, 0x22#8, 0x33#8, 0x44#8])) =
    some (.addressError 0x1001#32 .store) := by decide -- S9

theorem test_sw_big :
    bytesAt 0x1000 4 (run 0xAC220000 (before 0x1000#32 0x89ABCDEF#32 [0x11#8, 0x22#8, 0x33#8, 0x44#8])) =
    some [0x89#8, 0xAB#8, 0xCD#8, 0xEF#8] := by decide -- S1

theorem test_sw_little :
    bytesAt 0x1000 4 (run 0xAC220000
      (onPlatform (before 0x1000#32 0x89ABCDEF#32 [0x11#8, 0x22#8, 0x33#8, 0x44#8]) .little .wrap [])) =
    some [0xEF#8, 0xCD#8, 0xAB#8, 0x89#8] := by decide -- S3

theorem test_mfhi : regPc 3 (run 0x00001810 (before 0#32 0#32)) = some (0x11111111#32, 0x104#32) := by decide -- M1

theorem test_mflo : regPc 3 (run 0x00001812 (before 0#32 0#32)) = some (0x22222222#32, 0x104#32) := by decide -- M2

theorem test_mthi :
    hiLoPc (run 0x00200011 (before 0xCAFEF00D#32 0#32)) = some (0xCAFEF00D#32, 0x22222222#32, 0x104#32) := by decide -- M3

theorem test_mtlo_zero :
    hiLoPc (run 0x00000013 (before 0#32 0#32)) = some (0x11111111#32, 0#32, 0x104#32) := by decide -- M6

theorem test_trap_ends_the_run : faultOf (run 0x6BFFFFFF (before 0#32 0#32)) = some (.trap 67108863) := by decide -- T3

/-- R191, R206: the environment answers by the code (code 9 stops, code 10 is resumed with another record) and by the state
(the same code is resumed at `pc + 4` in one state and ends the run in another). -/
theorem test_trap_answered_by_code_and_state :
    regPc 2 (run 0x6800000A { before 0#32 0#32 with trapEnv := [
      { code := some 9, state := none, answer := .stop },
      { code := some 10, state := none, answer := .resume ((before 0#32 7#32).setPc 0x104#32).toArch }] }) =
      some (7#32, 0x104#32) ∧
    regPc 1 (exec (.trap 0) { before 5#32 0#32 with trapEnv := [
      { code := none, state := some (before 5#32 0#32).toArch, answer := .resumeNext }] }) = some (5#32, 0x104#32) ∧
    faultOf (exec (.trap 0) { before 6#32 0#32 with trapEnv := [
      { code := none, state := some (before 5#32 0#32).toArch, answer := .resumeNext }] }) = some (.trap 0) := by decide

/-- A `trap 5` at `pc` that the environment always resumes with the state at the trap. -/
def endless : State :=
  { (before 0#32 0#32).withFetchWord 32 0x68000005 with
    trapEnv := [{ code := none, state := none,
                  answer := .resume ((before 0#32 0#32).withFetchWord 32 0x68000005).toArch }] }

theorem endless_step (n : Nat) : step { endless with traps := n } = .next { endless with traps := n + 1 } := by
  have h : (fetch endless).toOption = some 0x68000005#32 ∧ decode 0x68000005#32 = .ok (.trap 5) := by decide
  unfold step
  rw [fetch_withTraps]
  cases hf : fetch endless with
  | error e => simp [hf, Except.toOption] at h
  | ok w =>
    obtain rfl : w = 0x68000005#32 := by simpa [hf, Except.toOption] using h.1
    simp only [h.2]
    rfl

/-- R216: an environment may resume traps without end, and such a run never ends. -/
theorem endless_run_never_ends (k n : Nat) : (runFrom k { endless with traps := n }).2 = none := by
  induction k generalizing n with
  | zero => rfl
  | succ k ih => simp only [runFrom, endless_step, ih]

/-! ### Fetch -/

theorem test_reserved_word :
    faultOf (run 0x3C011234 (before 0#32 0#32)) = some (.reservedInstruction 0x3C011234#32) := by decide -- X6

theorem test_unused_field_ignored :
    regPc 3 (run 0x00221FE0 (before 1#32 2#32)) = some (3#32, 0x104#32) := by decide -- X9

theorem test_misaligned_pc :
    faultOf (step ((before 0#32 0#32).setPc 0x102#32)) = some (.addressError 0x102#32 .fetch) := by decide -- X12

theorem test_unmapped_pc : faultOf (step (onPlatform ((before 0#32 0#32).setPc 0x3000#32) .big .wrap someHoles)) =
    some (.accessFault 0x3000#32 .fetch) := by decide -- X13

/-- F9's first word from reset with nothing else placed: the step runs, and a bare reset state has no instruction (log 9). -/
theorem test_first_step_from_reset : goesOn (run 0x00221820 State.reset) = true ∧
    faultOf (step State.reset) = some (.unwrittenByte 0#32 .fetch) := by decide

/-- A register-0 destination is discarded (A6), and the result of an addition replaces its own source (A7). -/
theorem test_register_zero_and_overlap :
    regPc 0 (run 0x00220020 (before 1#32 2#32)) = some (0#32, 0x104#32) ∧
      regPc 1 (run 0x00210820 (before 0x40000001#32 0#32)) = some (0x80000002#32, 0x104#32) := by decide

/-! ### Witnesses: a state and operands that meet every hypothesis of a statement -/

/-- The last word of the address space is written. -/
def atTop : State :=
  { before 0xFFFFFFFC#32 0x89ABCDEF#32 with mem := Memory.writeBytes [] 0xFFFFFFFC [0x80#8, 0x7F#8, 0xFE#8, 0x01#8] }

/-- The word of `add $3, $1, $2` stands at `pc`. -/
def placed : State := (before 1#32 2#32).withFetchWord 32 0x00221820

/-- A platform that refuses every data access at 0x2000 and the fetch at 0x3000, `x[1]` = 0x2000. -/
def holed : State := onPlatform (before 0x2000#32 0#32) .big .wrap someHoles

/-- `OVF_POLICY = fault` with the largest and the smallest number in `x[1]`, `x[2]`. -/
def faulting : State := onPlatform (before 0x7FFFFFFF#32 0x80000000#32) .little .fault []

theorem witness_DecodeOfEncodeIsTheInstruction :
    (Instr.srl 31 0 31).wellFormed = true ∧ (Instr.trap 67108863).wellFormed = true := by decide

theorem witness_DecodedInstructionsAreWellFormed : decode 0x00021FC0#32 = .ok (.sll 3 2 31) := by decide

theorem witness_UnusedFieldsAreIgnored : decode 0x00221820#32 = .ok (.add 3 1 2) ∧
    0x00221FE0#32 &&& (Instr.add 3 1 2).usedBits = 0x00221820#32 &&& (Instr.add 3 1 2).usedBits := by decide

/-- The least and the greatest unassigned `op` and `f`. -/
theorem witness_UnassignedWordsRaiseReservedInstruction :
    (unassignedWord 0x04000000#32 ∧ unassignedWord 0xFFFFFFFF#32 ∧ unassignedWord 0x00000001#32 ∧
      unassignedWord 0x0000003F#32) ∧
    (fetch ((before 0#32 0#32).withFetchWord 32 0x0000003F)).toOption = some 0x0000003F#32 := by
  unfold unassignedWord; decide

theorem witness_StepRunsTheDecodedInstruction :
    placed.pc.toNat % 4 = 0 ∧ Platform.mapped placed.platform placed.pc 4 .fetch = true ∧
      Memory.readBytes placed.mem placed.pc.toNat 4 = some [0x00#8, 0x22#8, 0x18#8, 0x20#8] ∧
      decode (joinBytes placed.platform.endian 4 [0x00#8, 0x22#8, 0x18#8, 0x20#8]) = .ok (.add 3 1 2) := by decide

theorem witness_FetchRaisesInOrder_misaligned : (placed.setPc 0xFFFFFFFF#32).pc.toNat % 4 ≠ 0 := by decide

theorem witness_FetchRaisesInOrder_unmapped : (holed.setPc 0x3000#32).pc.toNat % 4 = 0 ∧
    Platform.mapped holed.platform (holed.setPc 0x3000#32).pc 4 .fetch = false := by decide

theorem witness_FetchRaisesInOrder_unwritten : State.reset.pc.toNat % 4 = 0 ∧
    Platform.mapped State.reset.platform State.reset.pc 4 .fetch = true ∧
    Memory.readBytes State.reset.mem State.reset.pc.toNat 4 = none := by decide

theorem witness_PlacedWordIsFetched : (atTop.setPc 0xFFFFFFFC#32).pc.toNat % 4 = 0 ∧
    Platform.mapped atTop.platform (atTop.setPc 0xFFFFFFFC#32).pc 4 .fetch = true := by decide

theorem witness_StoredWordIsFetched : (∃ t, exec (.sw 2 0#16 1) atTop = .next t) ∧
    Platform.mapped atTop.platform (atTop.getReg 1 + (0#16).signExtend 32) 4 .fetch = true := ⟨⟨_, rfl⟩, by decide⟩

theorem witness_RegistersReadAsWritten : (31 : RegNo) ≠ 0 ∧ (1 : RegNo) ≠ 31 ∧ (0 : RegNo) ≠ 31 := by decide

theorem witness_LhiAndLloBuildAnyConstant : (31 : RegNo) ≠ 0 := by decide

theorem witness_MemRead_misaligned :
    (0xFFFFFFFF#32 : Word).toNat % 2 ≠ 0 ∧ (0xFFFFFFFE#32 : Word).toNat % 4 ≠ 0 ∧ AccessKind.load ≠ .store := by decide

theorem witness_MemRead_unmapped : (0x2000#32 : Word).toNat % 4 = 0 ∧
    Platform.mapped holed.platform 0x2000#32 1 .load = false ∧ Platform.mapped holed.platform 0x2000#32 2 .load = false ∧
    Platform.mapped holed.platform 0x2000#32 4 .load = false := by decide

theorem witness_MemRead_byte : Platform.mapped atTop.platform 0xFFFFFFFF#32 1 .load = true ∧
    Memory.read atTop.mem (0xFFFFFFFF#32 : Word).toNat = some 0x01#8 := by decide

theorem witness_MemRead_halfword : (0xFFFFFFFE#32 : Word).toNat % 2 = 0 ∧
    Platform.mapped atTop.platform 0xFFFFFFFE#32 2 .load = true ∧
    Memory.read atTop.mem (0xFFFFFFFE#32 : Word).toNat = some 0xFE#8 ∧
    Memory.read atTop.mem ((0xFFFFFFFE#32 : Word).toNat + 1) = some 0x01#8 ∧ atTop.platform.endian = .big := by decide

theorem witness_MemRead_word : (0xFFFFFFFC#32 : Word).toNat % 4 = 0 ∧
    Platform.mapped atTop.platform 0xFFFFFFFC#32 4 .load = true ∧
    Memory.read atTop.mem (0xFFFFFFFC#32 : Word).toNat = some 0x80#8 ∧
    Memory.read atTop.mem ((0xFFFFFFFC#32 : Word).toNat + 1) = some 0x7F#8 ∧
    Memory.read atTop.mem ((0xFFFFFFFC#32 : Word).toNat + 2) = some 0xFE#8 ∧
    Memory.read atTop.mem ((0xFFFFFFFC#32 : Word).toNat + 3) = some 0x01#8 ∧
    (onPlatform atTop .little .wrap []).platform.endian = .little := by decide

theorem witness_MemWrite_misaligned :
    (0xFFFFFFFF#32 : Word).toNat % 4 ≠ 0 ∧ (0xFFFFFFFF#32 : Word).toNat % 2 ≠ 0 := by decide

theorem witness_MemWrite_unmapped : (0x2000#32 : Word).toNat % 4 = 0 ∧
    Platform.mapped holed.platform 0x2000#32 4 .store = false := by decide

theorem witness_MemWrite_stores : (0xFFFFFFFC#32 : Word).toNat % 4 = 0 ∧
    Platform.mapped atTop.platform 0xFFFFFFFC#32 4 .store = true ∧ ¬ inBytes 0xFFFFFFFB 0xFFFFFFFC#32 4 := by
  unfold inBytes; decide

theorem witness_NarrowReadsAfterWordWrite_big : (∃ t, memWrite atTop 0xFFFFFFFC#32 4 0x89ABCDEF#32 = .ok t) ∧
    Platform.mapped atTop.platform (0xFFFFFFFC#32 + BitVec.ofNat 32 3) 1 .load = true ∧
    Platform.mapped atTop.platform 0xFFFFFFFC#32 2 .load = true ∧
    Platform.mapped atTop.platform (0xFFFFFFFC#32 + 2#32) 2 .load = true ∧ atTop.platform.endian = .big :=
  ⟨⟨_, rfl⟩, by decide⟩

theorem witness_NarrowReadsAfterWordWrite_little :
    (∃ t, memWrite (onPlatform atTop .little .wrap []) 0#32 4 0x89ABCDEF#32 = .ok t) ∧
    Platform.mapped (onPlatform atTop .little .wrap []).platform (0#32 + BitVec.ofNat 32 0) 1 .load = true ∧
    (onPlatform atTop .little .wrap []).platform.endian = .little := ⟨⟨_, rfl⟩, by decide⟩

theorem witness_StepKeepsMemoryCanonical :
    ((before 0xFFFFFFFC#32 1#32).withFetchWord 32 0xAC220000).wf = true ∧
      ∃ t, step ((before 0xFFFFFFFC#32 1#32).withFetchWord 32 0xAC220000) = .next t := ⟨by decide, _, rfl⟩

theorem witness_StepKeepsThePlatform : ∃ t, step placed = .next t := ⟨_, rfl⟩

theorem witness_OtherInstructionsKeepPcAligned : (before 9#32 8#32).pc.toNat % 4 = 0 ∧
    jumpsToRegister (.bne 1 2 0x8000#16) = false ∧ isTrap (.bne 1 2 0x8000#16) = false ∧
    ∃ t, exec (.bne 1 2 0x8000#16) (before 9#32 8#32) = .next t := ⟨by decide, rfl, rfl, _, rfl⟩

theorem witness_OnlyTheDestinationRegisterChanges : isTrap (.jal 4#26) = false ∧ destination (.jal 4#26) ≠ some 30 ∧
    ∃ t, exec (.jal 4#26) atTop = .next t := ⟨rfl, by decide, _, rfl⟩

/-- The clause for register 0. -/
theorem witness_OnlyTheDestinationRegisterChanges_zero : isTrap (.addu 0 1 2) = false ∧
    ∃ t, exec (.addu 0 1 2) atTop = .next t := ⟨rfl, _, rfl⟩

theorem witness_OnlySixInstructionsWriteHiLo : isTrap (.mthi 1) = false ∧ writesHi (.mtlo 1) = false ∧
    writesLo (.mthi 1) = false ∧ (∃ t, exec (.mthi 1) atTop = .next t) ∧ ∃ t, exec (.mtlo 1) atTop = .next t :=
  ⟨rfl, rfl, rfl, ⟨_, rfl⟩, _, rfl⟩

theorem witness_OnlyStoredBytesChange_none : isTrap (.lw 3 0#16 1) = false ∧ storedBytes atTop (.lw 3 0#16 1) = none ∧
    ∃ t, exec (.lw 3 0#16 1) atTop = .next t := ⟨rfl, rfl, _, rfl⟩

theorem witness_OnlyStoredBytesChange_some : isTrap (.sh 2 2#16 1) = false ∧
    storedBytes atTop (.sh 2 2#16 1) = some (0xFFFFFFFE#32, 2) ∧ ¬ inBytes 0xFFFFFFFD 0xFFFFFFFE#32 2 ∧
    ∃ t, exec (.sh 2 2#16 1) atTop = .next t := ⟨rfl, by decide, by unfold inBytes; decide, _, rfl⟩

theorem witness_OtherInstructionsAdvancePc : transfersControl (.addu 3 1 2) = false ∧
    ∃ t, exec (.addu 3 1 2) (atTop.setPc 0xFFFFFFFC#32) = .next t := ⟨rfl, _, rfl⟩

theorem witness_ModelFieldsChangeOnlyWhereSaid : isTrap (.mult 1 2) = false ∧ isDivision (.mult 1 2) = false ∧
    isTrap (.trap 5) = true ∧
    (∃ t, exec (.mult 1 2) atTop = .next t) ∧ (∃ t, exec (.div 1 0) atTop = .next t) ∧
    ∃ t, exec (.trap 5) endless = .next t := ⟨rfl, rfl, rfl, ⟨_, rfl⟩, ⟨_, rfl⟩, _, rfl⟩

theorem witness_ThirtyEightInstructionsNeverRaise : neverRaises (.jalr 31) = true := rfl

theorem witness_InstructionsRaiseOnlyWhatTheirRowNames :
    exec (.lh 2 0#16 1) (before 0xFFFFFFFF#32 0#32) = .fault (.addressError 0xFFFFFFFF#32 .load) := rfl

/-- Under `fault`, sums and differences at both ends of the signed range; and the `wrap` policy. -/
theorem witness_SignedAddSubtractComplete : faulting.platform.ovf = .fault ∧
    (faulting.getReg 1).toInt + (faulting.getReg 0).toInt = 2147483647 ∧
    (faulting.getReg 2).toInt - (faulting.getReg 0).toInt = -2147483648 ∧
    (faulting.getReg 2).toInt + (0#16).toInt = -2147483648 ∧ atTop.platform.ovf = .wrap := by decide

theorem witness_SignedOverflowRaisesUnderFaultPolicy : faulting.platform.ovf = .fault ∧
    2147483647 < (faulting.getReg 1).toInt + (1#16).toInt ∧
    (faulting.getReg 2).toInt - (faulting.getReg 1).toInt < -2147483648 := by decide

theorem witness_ConstantShiftsMoveBits : 0 < 32 ∧ 31 < 32 := by decide

theorem witness_SignedDivideTruncates_overflow :
    (before 0x80000000#32 0xFFFFFFFF#32).getReg 2 ≠ 0#32 ∧ (before 0x80000000#32 0xFFFFFFFF#32).getReg 1 = 0x80000000#32 ∧
      (before 0x80000000#32 0xFFFFFFFF#32).getReg 2 = 0xFFFFFFFF#32 := by decide

theorem witness_SignedDivideTruncates_other :
    (before 0x80000001#32 0xFFFFFFFF#32).getReg 2 ≠ 0#32 ∧
      (before 0x80000001#32 0xFFFFFFFF#32).getReg 1 ≠ 0x80000000#32 := by
  decide

theorem witness_UnsignedDivideFloors : (before 0x80000000#32 1#32).getReg 2 ≠ 0#32 := by decide

theorem witness_DividendIsQuotientTimesDivisorPlusRemainder : (before 0x80000000#32 0xFFFFFFFF#32).getReg 2 ≠ 0#32 ∧
    (∃ t, exec (.div 1 2) (before 0x80000000#32 0xFFFFFFFF#32) = .next t) ∧
    ∃ t, exec (.divu 1 2) (before 0x80000000#32 0xFFFFFFFF#32) = .next t := ⟨by decide, ⟨_, rfl⟩, _, rfl⟩

theorem witness_DivisionByZeroTakesTwoFreshDraws : (before 5#32 0#32).getReg 2 = 0#32 := by decide

theorem witness_ByteLoadsExtend :
    Platform.mapped atTop.platform (atTop.getReg 1 + (3#16).signExtend 32) 1 .load = true ∧
      Memory.read atTop.mem (atTop.getReg 1 + (3#16).signExtend 32).toNat = some 0x01#8 := by decide

theorem witness_HalfwordLoadsExtend : (atTop.getReg 1 + (2#16).signExtend 32).toNat % 2 = 0 ∧
    Platform.mapped atTop.platform (atTop.getReg 1 + (2#16).signExtend 32) 2 .load = true ∧
    Memory.read atTop.mem (atTop.getReg 1 + (2#16).signExtend 32).toNat = some 0xFE#8 ∧
    Memory.read atTop.mem ((atTop.getReg 1 + (2#16).signExtend 32).toNat + 1) = some 0x01#8 := by decide

theorem witness_WordLoadReadsFourBytes : (atTop.getReg 1 + (0#16).signExtend 32).toNat % 4 = 0 ∧
    Platform.mapped atTop.platform (atTop.getReg 1 + (0#16).signExtend 32) 4 .load = true ∧
    Memory.read atTop.mem (atTop.getReg 1 + (0#16).signExtend 32).toNat = some 0x80#8 ∧
    Memory.read atTop.mem ((atTop.getReg 1 + (0#16).signExtend 32).toNat + 1) = some 0x7F#8 ∧
    Memory.read atTop.mem ((atTop.getReg 1 + (0#16).signExtend 32).toNat + 2) = some 0xFE#8 ∧
    Memory.read atTop.mem ((atTop.getReg 1 + (0#16).signExtend 32).toNat + 3) = some 0x01#8 := by decide

/-- A misaligned halfword and word address: the greatest of each. -/
theorem witness_Raise_misaligned : (atTop.getReg 1 + (3#16).signExtend 32).toNat % 2 ≠ 0 ∧
    (atTop.getReg 1 + (2#16).signExtend 32).toNat % 4 ≠ 0 := by decide

theorem witness_LoadsRaise_unmapped : (holed.getReg 1 + (0#16).signExtend 32).toNat % 4 = 0 ∧
    (holed.getReg 1 + (0#16).signExtend 32).toNat % 2 = 0 ∧
    Platform.mapped holed.platform (holed.getReg 1 + (0#16).signExtend 32) 1 .load = false ∧
    Platform.mapped holed.platform (holed.getReg 1 + (0#16).signExtend 32) 2 .load = false ∧
    Platform.mapped holed.platform (holed.getReg 1 + (0#16).signExtend 32) 4 .load = false := by decide

theorem witness_StoresRaise_unmapped : (holed.getReg 1 + (0#16).signExtend 32).toNat % 4 = 0 ∧
    (holed.getReg 1 + (0#16).signExtend 32).toNat % 2 = 0 ∧
    Platform.mapped holed.platform (holed.getReg 1 + (0#16).signExtend 32) 1 .store = false ∧
    Platform.mapped holed.platform (holed.getReg 1 + (0#16).signExtend 32) 2 .store = false ∧
    Platform.mapped holed.platform (holed.getReg 1 + (0#16).signExtend 32) 4 .store = false := by decide

theorem witness_StoresPutTheLowBytes :
    Platform.mapped atTop.platform (atTop.getReg 1 + (3#16).signExtend 32) 1 .store = true ∧
    (atTop.getReg 1 + (2#16).signExtend 32).toNat % 2 = 0 ∧
    Platform.mapped atTop.platform (atTop.getReg 1 + (2#16).signExtend 32) 2 .store = true ∧
    (atTop.getReg 1 + (0#16).signExtend 32).toNat % 4 = 0 ∧
    Platform.mapped atTop.platform (atTop.getReg 1 + (0#16).signExtend 32) 4 .store = true := by decide

theorem witness_WordLoadReturnsTheWordStored : (∃ t, exec (.sw 2 0#16 1) atTop = .next t) ∧
    Platform.mapped atTop.platform (atTop.getReg 1 + (0#16).signExtend 32) 4 .load = true ∧ (1 : RegNo) ≠ 0 :=
  ⟨⟨_, rfl⟩, by decide⟩

/-- Code 0 is resumed in two ways, code 1 stops or is resumed, code 67108863 stops, the other codes have no answer. -/
def resumed : State :=
  { atTop with trapEnv := [
      { code := some 0, state := none, answer := .resumeNext },
      { code := some 0, state := some atTop.toArch, answer := .resume (atTop.setPc 0x200#32).toArch },
      { code := some 1, state := none, answer := .stop },
      { code := some 1, state := none, answer := .resumeNext },
      { code := some 67108863, state := none, answer := .stop }] }

theorem witness_ResumedTrapContinuesWithTheEnvironmentsState :
    (∃ o, mayAnswer resumed.trapEnv 0 resumed.toArch o) ∧ ¬ mayAnswer resumed.trapEnv 0 resumed.toArch none ∧
      ∃ t, exec (.trap 0) { atTop with trapEnv := [{ code := none, state := none, answer := .resumeNext }] } = .next t :=
  ⟨⟨_, _, List.mem_cons_self, .inr rfl, .inl rfl, rfl⟩, by simp [mayAnswer, resumed], _, rfl⟩

/-- No environment; an environment that only stops; a code that no line covers; and a trap that ends the run. -/
theorem witness_UnresumedTrapEndsTheRun :
    (∀ a, ¬ mayAnswer State.reset.trapEnv 0 State.reset.toArch (some a)) ∧
      (∀ a, ¬ mayAnswer resumed.trapEnv 67108863 resumed.toArch (some a)) ∧
      (∀ a, ¬ mayAnswer resumed.trapEnv 2 resumed.toArch (some a)) ∧
      exec (.trap 67108863) resumed = .fault (.trap 67108863) :=
  ⟨by simp [mayAnswer, State.reset], by simp [mayAnswer, resumed], by simp [mayAnswer, resumed], rfl⟩

theorem witness_RunEndsInTheStateThatRaised :
    runFrom 1 ((before 0#32 0#32).withFetchWord 32 0x68000005) =
      ((before 0#32 0#32).withFetchWord 32 0x68000005, some (.trap 5)) := by decide

end Sys2Proof.Tests
end

/-! Proofs for the encoding family: O4 and O45. -/

section
namespace Sys2Proof

/-! ### The row a word stands in (R70)

`rowOf` reads the mask and the match off the word's own `op` and `f`; `decode` answers with an instruction of that row or
not at all (`row_of_decode`), and every instruction's row is the row of its word (`row_eq_rowOf_encode`). -/

/-- The `(mask, match)` that R70 gives a word by its fields: by `f` when `op` is `000_000`, else by `op` alone. -/
def rowOf (w : Word) : Word × Word :=
  if fieldOp w = 0x00#6 then (0xFC00003F#32, (fieldF w).setWidth 32) else (0xFC000000#32, jumpWord (fieldOp w) 0#26)

theorem rowOf_of_op_eq_zero {w : Word} (h : fieldOp w = 0x00#6) :
    rowOf w = (0xFC00003F#32, (fieldF w).setWidth 32) := if_pos h

theorem rowOf_of_op_ne_zero {w : Word} (h : fieldOp w ≠ 0x00#6) :
    rowOf w = (0xFC000000#32, jumpWord (fieldOp w) 0#26) := if_neg h

@[simp] theorem fieldOp_and (w m : Word) : fieldOp (w &&& m) = fieldOp w &&& fieldOp m := BitVec.extractLsb'_and

@[simp] theorem fieldF_and (w m : Word) : fieldF (w &&& m) = fieldF w &&& fieldF m := BitVec.extractLsb'_and

/-- Every word is a Jump-encoding word (R65). -/
theorem jumpWord_fields (w : Word) : jumpWord (fieldOp w) (fieldA w) = w := by
  apply BitVec.eq_of_toNat_eq
  have := w.isLt
  simp only [jumpWord_toNat, fieldOp, fieldA, extract_toNat]; omega

/-- A word with `op` = `000_000` is a Register-encoding word (R63). -/
theorem regWord_fields {w : Word} (h : fieldOp w = 0x00#6) :
    regWord (w.extractLsb' 21 5) (w.extractLsb' 16 5) (w.extractLsb' 11 5) (w.extractLsb' 6 5) (fieldF w) = w := by
  apply BitVec.eq_of_toNat_eq
  have hw := w.isLt
  have hop : w.toNat / 2 ^ 26 % 2 ^ 6 = 0 := by
    simpa only [fieldOp, extract_toNat, BitVec.toNat_zero] using congrArg BitVec.toNat h
  simp only [regWord_toNat, fieldF, extract_toNat]; omega

/-- A word matches its own row. -/
theorem and_rowOf_self (w : Word) : w &&& (rowOf w).1 = (rowOf w).2 := by
  by_cases h : fieldOp w = 0x00#6
  · rw [rowOf_of_op_eq_zero h]
    simpa only [regWord_fields h] using regWord_and_mask (w.extractLsb' 21 5) (w.extractLsb' 16 5) (w.extractLsb' 11 5)
      (w.extractLsb' 6 5) (fieldF w)
  · rw [rowOf_of_op_ne_zero h]
    simpa only [jumpWord_fields] using jumpWord_and_mask (fieldOp w) (fieldA w)

/-- Words that agree under the Register mask have one `op` and one `f`. -/
theorem fields_eq_of_and_functMask_eq {w v : Word} (h : w &&& 0xFC00003F#32 = v &&& 0xFC00003F#32) :
    fieldOp w = fieldOp v ∧ fieldF w = fieldF v := by
  have hop := congrArg fieldOp h
  have hf := congrArg fieldF h
  rw [fieldOp_and, fieldOp_and, show fieldOp 0xFC00003F#32 = 0x3F#6 by decide, and_ones6, and_ones6] at hop
  rw [fieldF_and, fieldF_and, show fieldF 0xFC00003F#32 = 0x3F#6 by decide, and_ones6, and_ones6] at hf
  exact ⟨hop, hf⟩

/-- Words that agree under the opcode mask have one `op`. -/
theorem fieldOp_eq_of_and_opMask_eq {w v : Word} (h : w &&& 0xFC000000#32 = v &&& 0xFC000000#32) :
    fieldOp w = fieldOp v := by
  have hop := congrArg fieldOp h
  rwa [fieldOp_and, fieldOp_and, show fieldOp 0xFC000000#32 = 0x3F#6 by decide, and_ones6, and_ones6] at hop

/-- A word that matches the row of another word has the fields the row fixes. -/
theorem fields_eq_of_and_rowOf_eq {w v : Word} (h : w &&& (rowOf v).1 = (rowOf v).2) :
    fieldOp w = fieldOp v ∧ (fieldOp v = 0x00#6 → fieldF w = fieldF v) := by
  have hv : w &&& (rowOf v).1 = v &&& (rowOf v).1 := h.trans (and_rowOf_self v).symm
  by_cases h0 : fieldOp v = 0x00#6
  · rw [rowOf_of_op_eq_zero h0] at hv
    obtain ⟨hop, hf⟩ := fields_eq_of_and_functMask_eq hv
    exact ⟨hop, fun _ => hf⟩
  · rw [rowOf_of_op_ne_zero h0] at hv
    exact ⟨fieldOp_eq_of_and_opMask_eq hv, fun hz => absurd hz h0⟩

theorem rowOf_eq_of_fields_eq {w v : Word} (hop : fieldOp w = fieldOp v)
    (hf : fieldOp v = 0x00#6 → fieldF w = fieldF v) : rowOf w = rowOf v := by
  by_cases h0 : fieldOp v = 0x00#6
  · rw [rowOf, rowOf, hop, hf h0]
  · rw [rowOf_of_op_ne_zero h0, rowOf_of_op_ne_zero (hop ▸ h0), hop]

/-! ### The decoder and the rows -/

/-- Every instruction stands in the row of its word. -/
theorem row_eq_rowOf_encode (j : Instr) : j.row = rowOf (encode j) := by
  cases j <;> simp [encode, rowOf, Instr.row] <;> decide

/-- Every instruction of the function grid stands in the row of the word's `f` (R72). -/
theorem row_of_decodeFunct {w : Word} {i : Instr} (h : decodeFunct w = .ok i) :
    i.row = (0xFC00003F#32, (fieldF w).setWidth 32) := by
  unfold decodeFunct at h
  split at h <;> cases h <;> simp only [*] <;> rfl

/-- What the decoder answers stands in the row of the word. -/
theorem row_of_decode {w : Word} {i : Instr} (h : decode w = .ok i) : i.row = rowOf w := by
  unfold decode at h
  split at h
  case h_1 h0 => rw [rowOf_of_op_eq_zero h0, row_of_decodeFunct h]
  all_goals cases h <;> simp only [rowOf, *] <;> rfl

/-- The decoder answers on every word that has the `op` of an instruction's word and, when that is `000_000`, its `f`. -/
theorem exists_decode_of_fields_eq {w : Word} {j : Instr} (hop : fieldOp w = fieldOp (encode j))
    (hf : fieldOp (encode j) = 0x00#6 → fieldF w = fieldF (encode j)) : ∃ i, decode w = .ok i := by
  cases j <;>
    simp only [encode, fieldOp_regWord, fieldF_regWord, fieldOp_immWord, fieldOp_jumpWord, forall_const] at hop hf <;>
    simp only [decode, decodeFunct, hop, hf, Except.ok.injEq, exists_eq']

/-- Settles O4: a match fixes `op` and, when that is `000_000`, `f`; the decoder reads these alone, so it answers, and with
an instruction of that row. Conversely a word matches the row of what the decoder answers, since that is its own row. -/
theorem wordIsInstructionWhenMaskMatches : Obligations.WordIsInstructionWhenMaskMatches := by
  intro w j
  constructor
  · intro hmatch
    rw [row_eq_rowOf_encode j] at hmatch
    obtain ⟨hop, hf⟩ := fields_eq_of_and_rowOf_eq hmatch
    obtain ⟨i, hi⟩ := exists_decode_of_fields_eq hop hf
    refine ⟨i, hi, ?_⟩
    calc i.row = rowOf w := row_of_decode hi
      _ = rowOf (encode j) := rowOf_eq_of_fields_eq hop hf
      _ = j.row := (row_eq_rowOf_encode j).symm
  · rintro ⟨i, hi, hrow⟩
    rw [← hrow, row_of_decode hi]
    exact and_rowOf_self w

end Sys2Proof

namespace Sys2Proof.Machine

/-! ### Branch and jump targets (R69) -/

/-- A sign-extended field shifted left by 2 is four times its signed value, modulo 2^32. -/
theorem signExtend_shiftLeft_two {n : Nat} (x : BitVec n) :
    x.signExtend 32 <<< 2 = BitVec.ofInt 32 (4 * x.toInt) := by
  rw [BitVec.shiftLeft_eq_mul_twoPow, BitVec.mul_comm, BitVec.ofInt_mul]
  rfl

/-- The sum of R69 computed on words is the sum computed on integers, modulo 2^32. -/
theorem pc_add_four_add_signExtend {n : Nat} (pc : Word) (x : BitVec n) :
    pc + 4#32 + (x.signExtend 32 <<< 2) = BitVec.ofInt 32 (pc.toNat + 4 + 4 * x.toInt) := by
  have hpc : BitVec.ofInt 32 pc.toNat = pc := by rw [BitVec.ofInt_natCast, BitVec.ofNat_toNat, BitVec.setWidth_eq]
  rw [signExtend_shiftLeft_two, BitVec.ofInt_add, BitVec.ofInt_add, hpc]
  rfl

/-- Settles O45: both targets are the sum of R69, for fields of 16 and of 26 bits. -/
theorem offsetsAreSignedWordCounts : Obligations.OffsetsAreSignedWordCounts :=
  fun pc => ⟨fun imm => pc_add_four_add_signExtend pc imm, fun off => pc_add_four_add_signExtend pc off⟩

end Sys2Proof.Machine
end

/-! Proofs for the arithmetic and logic family: O32, O33 and O34. -/

section
namespace Sys2Proof

/-! ### The decoder on a word built from fields (R66) -/

/-- A Register-encoding word is read by its `f` (R63, R66). -/
@[simp] theorem decode_regWord (s t d h : BitVec 5) (f : BitVec 6) :
    decode (regWord s t d h f) = decodeFunct (regWord s t d h f) := by
  simp only [decode, fieldOp_regWord]

/-- A shift amount in the range of R77 is the number its 5-bit field holds. -/
theorem toNat_ofNat_shift {sa : Nat} (h : sa < 32) : (BitVec.ofNat 5 sa).toNat = sa :=
  Nat.mod_eq_of_lt h

end Sys2Proof

namespace Sys2Proof.Machine

/-! ### An instruction that writes one register -/

/-- An instruction that finishes with `v` completes, and whatever holds of `v` holds of the destination afterwards. For one
instruction `hi` is `rfl`: its arm of `exec` is such a `finish`. -/
theorem completes_of_finish {i : Instr} {s : State} {r : RegNo} {v : Word} (hi : exec i s = finish s r v)
    {P : Word → Prop} (hv : P v) : ∃ t, exec i s = .next t ∧ (r ≠ 0 → P (t.getReg r)) := by
  refine ⟨_, hi, fun hr => ?_⟩
  rwa [getReg_advance, getReg_setReg_same _ _ _ hr]

/-- `completes_of_finish` for the value itself. -/
theorem completes_with_value {i : Instr} {s : State} {r : RegNo} {v w : Word} (hi : exec i s = finish s r v)
    (hv : v = w) : ∃ t, exec i s = .next t ∧ (r ≠ 0 → t.getReg r = w) :=
  completes_of_finish (P := (· = w)) hi hv

/-- `completes_of_finish` for each bit of the value. -/
theorem completes_with_bits {i : Instr} {s : State} {r : RegNo} {v : Word} {b : Nat → Bool}
    (hi : exec i s = finish s r v) (hv : ∀ k < 32, v.getLsbD k = b k) :
    ∃ t, exec i s = .next t ∧ (r ≠ 0 → ∀ k < 32, (t.getReg r).getLsbD k = b k) :=
  completes_of_finish (P := fun x => ∀ k < 32, x.getLsbD k = b k) hi hv

/-! ### Logical operations (R104, R110, R111, R121) -/

theorem getLsbD_not_or_word (x y : Word) {k : Nat} (hk : k < 32) :
    (~~~(x ||| y)).getLsbD k = !(x.getLsbD k || y.getLsbD k) := by
  simp only [BitVec.getLsbD_not, BitVec.getLsbD_or, hk, decide_true, Bool.true_and]

/-- Settles O32: each word decodes by its `f`, and each value's bits are those of the word operation. -/
theorem logicalOperationsActBitByBit : Obligations.LogicalOperationsActBitByBit := by
  intro s rd rs rt
  refine ⟨⟨?_, completes_with_bits rfl fun k _ => BitVec.getLsbD_and⟩,
    ⟨?_, completes_with_bits rfl fun k hk => getLsbD_not_or_word _ _ hk⟩,
    ⟨?_, completes_with_bits rfl fun k _ => BitVec.getLsbD_or⟩,
    ⟨?_, completes_with_bits rfl fun k _ => BitVec.getLsbD_xor⟩⟩
  all_goals simp [decodeFunct]

/-! ### Logical immediates (R105, R112, R122) -/

theorem highHalf_append_lowHalf (x : Word) : highHalf x ++ lowHalf x = x := by
  rw [highHalf, lowHalf, BitVec.extractLsb'_append_extractLsb'_eq_extractLsb' (rfl : 16 = 0 + 16)]
  exact BitVec.extractLsb'_eq_self

/-- The zero-extended immediate (R68) is a zero upper half over the immediate. -/
theorem rawImm_eq_append (imm : BitVec 16) : rawImm imm = 0#16 ++ imm :=
  BitVec.setWidth_eq_append (by decide)

theorem and_rawImm (x : Word) (imm : BitVec 16) : x &&& rawImm imm = 0#16 ++ (lowHalf x &&& imm) := by
  conv_lhs => rw [← highHalf_append_lowHalf x, rawImm_eq_append, BitVec.and_append, BitVec.and_zero]

theorem or_rawImm (x : Word) (imm : BitVec 16) : x ||| rawImm imm = highHalf x ++ (lowHalf x ||| imm) := by
  conv_lhs => rw [← highHalf_append_lowHalf x, rawImm_eq_append, BitVec.or_append, BitVec.or_zero]

theorem xor_rawImm (x : Word) (imm : BitVec 16) : x ^^^ rawImm imm = highHalf x ++ (lowHalf x ^^^ imm) := by
  conv_lhs => rw [← highHalf_append_lowHalf x, rawImm_eq_append, BitVec.xor_append, BitVec.xor_zero]

/-- Settles O33: the operation acts on each half alone, and the upper half of the immediate is zero. -/
theorem logicalImmediatesZeroExtend : Obligations.LogicalImmediatesZeroExtend := by
  intro s rt rs imm
  refine ⟨⟨?_, completes_with_value rfl (and_rawImm _ _)⟩, ⟨?_, completes_with_value rfl (or_rawImm _ _)⟩,
    ⟨?_, completes_with_value rfl (xor_rawImm _ _)⟩⟩
  all_goals simp [decode]

/-! ### Shifts by a constant (R113, R115, R117) -/

theorem getLsbD_shiftLeft_word (x : Word) (sa : Nat) {k : Nat} (hk : k < 32) :
    (x <<< sa).getLsbD k = if k < sa then false else x.getLsbD (k - sa) := by
  rw [BitVec.getLsbD_shiftLeft]
  split_ifs with h <;> simp [hk, h]

theorem getLsbD_sshiftRight_word (x : Word) (sa : Nat) {k : Nat} (hk : k < 32) :
    (x.sshiftRight sa).getLsbD k = if k + sa < 32 then x.getLsbD (k + sa) else x.getLsbD 31 := by
  rw [BitVec.getLsbD_sshiftRight, Nat.add_comm sa k, BitVec.msb_eq_getLsbD_last]
  simp [Nat.not_le.mpr hk]

theorem getLsbD_ushiftRight_word (x : Word) (sa k : Nat) :
    (x >>> sa).getLsbD k = if k + sa < 32 then x.getLsbD (k + sa) else false := by
  rw [BitVec.getLsbD_ushiftRight, Nat.add_comm sa k]
  split_ifs with h
  · rfl
  · exact BitVec.getLsbD_of_ge _ _ (Nat.not_lt.mp h)

/-- Settles O34: a count below 32 is what its field holds, and bit `k` of the value comes from bit `k - sa` (left) or
`k + sa` (right) when that is a bit of the word, else from the bit that enters. -/
theorem constantShiftsMoveBits : Obligations.ConstantShiftsMoveBits := by
  intro s rd rt sa hsa
  refine ⟨⟨?_, completes_with_bits rfl fun k hk => getLsbD_shiftLeft_word _ _ hk⟩,
    ⟨?_, completes_with_bits rfl fun k hk => getLsbD_sshiftRight_word _ _ hk⟩,
    ⟨?_, completes_with_bits rfl fun k _ => getLsbD_ushiftRight_word _ _ k⟩⟩
  all_goals simp [decodeFunct, toNat_ofNat_shift hsa]

end Sys2Proof.Machine
end

/-! Proofs for the constant family: O41. -/

section
namespace Sys2Proof.Machine

/-! ### The halves of a word built from two halves (C11) -/

@[simp] theorem highHalf_append (x y : BitVec 16) : highHalf (x ++ y) = x := BitVec.extractLsb'_append_eq_left

@[simp] theorem lowHalf_append (x y : BitVec 16) : lowHalf (x ++ y) = y := BitVec.extractLsb'_append_eq_right

/-- `completes_of_finish` with the corner case of register 0, where no register changes (R21, D3). -/
theorem completes_or_discards {i : Instr} {s : State} {r : RegNo} {v : Word} (hi : exec i s = finish s r v)
    {P : Word → Prop} (hv : P v) :
    ∃ t, exec i s = .next t ∧ (r = 0 → ∀ q, t.getReg q = s.getReg q) ∧ (r ≠ 0 → P (t.getReg r)) := by
  obtain ⟨t, ht, hP⟩ := completes_of_finish hi hv
  have hst : (s.setReg r v).advance = t := Host.Outcome.next.inj (hi.symm.trans ht)
  refine ⟨t, ht, fun hr q => ?_, hP⟩
  rw [← hst, hr, setReg_zero, getReg_advance]

/-- `completes_or_discards` for a word built from two halves. -/
theorem completes_with_halves {i : Instr} {s : State} {r : RegNo} {x y : BitVec 16}
    (hi : exec i s = finish s r (x ++ y)) :
    ∃ t, exec i s = .next t ∧ (r = 0 → ∀ q, t.getReg q = s.getReg q) ∧
      (r ≠ 0 → highHalf (t.getReg r) = x ∧ lowHalf (t.getReg r) = y) :=
  completes_or_discards (P := fun w => highHalf w = x ∧ lowHalf w = y) hi ⟨highHalf_append x y, lowHalf_append x y⟩

/-- Settles O41: `lhi` finishes with the immediate over the old lower half, `llo` with the old upper half over the
immediate. -/
theorem halfWritesKeepTheOtherHalf : Obligations.HalfWritesKeepTheOtherHalf := by
  intro s rt imm
  refine ⟨⟨?_, completes_with_halves rfl⟩, ⟨?_, completes_with_halves rfl⟩⟩
  all_goals simp [decode]

end Sys2Proof.Machine
end

/-! Proofs for the jump family: O46 and O47. -/

section
namespace Sys2Proof

/-! ### The words of the jumps (R66) -/

/-- The word with `op` = `0x02` is `j`, whatever its field (R150). -/
@[simp] theorem decode_jumpWord_j (off : BitVec 26) : decode (jumpWord 0x02#6 off) = .ok (.j off) := by
  simp only [decode, fieldOp_jumpWord, fieldA_jumpWord]

/-- The word with `op` = `0x03` is `jal`, whatever its field (R151). -/
@[simp] theorem decode_jumpWord_jal (off : BitVec 26) : decode (jumpWord 0x03#6 off) = .ok (.jal off) := by
  simp only [decode, fieldOp_jumpWord, fieldA_jumpWord]

/-- The word with `f` = `0x08` is `jr`, whatever the fields it does not use (R74, R153). -/
@[simp] theorem decodeFunct_regWord_jr (rs : RegNo) (t d h : BitVec 5) :
    decodeFunct (regWord (regBits rs) t d h 0x08#6) = .ok (.jr rs) := by
  simp only [decodeFunct, fieldF_regWord, fieldS_regWord, toFin_regBits]

end Sys2Proof

namespace Sys2Proof.Machine

/-! ### An instruction that writes `pc` alone -/

/-- A write to `pc` is undone by writing the old `pc` back: it changes nothing else. -/
theorem setPc_withPc (s : State) (v : Word) : { s.setPc v with pc := s.pc } = s := rfl

/-- An instruction that only writes `pc` completes with the target there, and leaves the rest of the state as it was. -/
theorem completes_of_setPc {i : Instr} {s : State} {v : Word} (hi : exec i s = .next (s.setPc v)) :
    ∃ t, exec i s = .next t ∧ t.pc = v ∧ { t with pc := s.pc } = s :=
  ⟨s.setPc v, hi, setPc_pc s v, setPc_withPc s v⟩

/-- `jal` (R151) completes with the target in `pc` and the link, read from the old `pc`, in `x[31]`. -/
theorem execJal_completes (off : BitVec 26) (s : State) :
    ∃ t, exec (.jal off) s = .next t ∧ t.pc = jumpTarget s.pc off ∧ t.getReg linkReg = linkAddress s := by
  refine ⟨(s.setReg linkReg (linkAddress s)).setPc (jumpTarget s.pc off), rfl, setPc_pc _ _, ?_⟩
  rw [getReg_setPc, getReg_setReg_same _ _ _ (by decide)]

/-- Settles O46: `j` writes the target to `pc` alone; `jal` also writes the link, and register 31 is not register 0. -/
theorem relativeJumpsAndLink : Obligations.RelativeJumpsAndLink :=
  fun s off => ⟨⟨decode_jumpWord_j off, completes_of_setPc rfl⟩, ⟨decode_jumpWord_jal off, execJal_completes off s⟩⟩

/-- Settles O47: `jr` writes the register's value to `pc` as it is, and nothing else. -/
theorem jumpRegisterCopiesTheRegister : Obligations.JumpRegisterCopiesTheRegister := by
  intro s rs
  refine ⟨?_, completes_of_setPc rfl⟩
  rw [decode_regWord, decodeFunct_regWord_jr]

end Sys2Proof.Machine
end

/-! Proofs for the data movement family: O56 and O57. -/

section
namespace Sys2Proof.Machine

/-! ### What moves do to `hi` and `lo` (R23) -/

/-- An instruction that writes one register leaves `hi` and `lo` as they were. -/
theorem hi_lo_of_finish {i : Instr} {s t : State} {r : RegNo} {v : Word} (hexec : exec i s = finish s r v)
    (ht : exec i s = .next t) : t.hi = s.hi ∧ t.lo = s.lo := by
  have hst : (s.setReg r v).advance = t := Host.Outcome.next.inj (hexec.symm.trans ht)
  rw [← hst, advance_hi, setReg_hi, advance_lo, setReg_lo]
  exact ⟨rfl, rfl⟩

/-- `completes_or_discards` for the value itself, together with the frame of `hi` and `lo`. -/
theorem completes_keeping_hi_lo {i : Instr} {s : State} {r : RegNo} {v : Word} (hexec : exec i s = finish s r v) :
    ∃ t, exec i s = .next t ∧ (r ≠ 0 → t.getReg r = v) ∧ (r = 0 → ∀ q, t.getReg q = s.getReg q) ∧
      t.hi = s.hi ∧ t.lo = s.lo := by
  obtain ⟨t, ht, hzero, hvalue⟩ := completes_or_discards (P := (· = v)) hexec rfl
  exact ⟨t, ht, hvalue, hzero, hi_lo_of_finish hexec ht⟩

/-- An instruction that finishes with the pair `h`, `l` completes with `h` in `hi` and `l` in `lo`. -/
theorem completes_of_finishHiLo {i : Instr} {s : State} {h l : Word} (hexec : exec i s = finishHiLo s h l) :
    ∃ t, exec i s = .next t ∧ t.hi = h ∧ t.lo = l := by
  refine ⟨(s.setHiLo h l).advance, hexec, ?_, ?_⟩
  · rw [advance_hi, setHiLo_hi]
  · rw [advance_lo, setHiLo_lo]

/-- Settles O56: `mfhi` finishes with `hi` and `mflo` with `lo`, and such a finish keeps the register it copies. -/
theorem moveFromHiLoCopies : Obligations.MoveFromHiLoCopies := by
  intro s rd
  obtain ⟨t, ht, hcopyHi, hzeroHi, hhi, -⟩ := completes_keeping_hi_lo (rfl : exec (.mfhi rd) s = finish s rd s.hi)
  obtain ⟨u, hu, hcopyLo, hzeroLo, -, hlo⟩ := completes_keeping_hi_lo (rfl : exec (.mflo rd) s = finish s rd s.lo)
  refine ⟨⟨?_, t, ht, hcopyHi, hzeroHi, hhi⟩, ⟨?_, u, hu, hcopyLo, hzeroLo, hlo⟩⟩
  all_goals simp [decodeFunct]

/-- Settles O57: `mthi` finishes with the register and the old `lo`, `mtlo` with the old `hi` and the register. -/
theorem moveToHiLoKeepsTheOther : Obligations.MoveToHiLoKeepsTheOther := by
  intro s rs
  have hmthi := completes_of_finishHiLo (rfl : exec (.mthi rs) s = finishHiLo s (s.getReg rs) s.lo)
  obtain ⟨u, hu, hhi, hlo⟩ := completes_of_finishHiLo (rfl : exec (.mtlo rs) s = finishHiLo s s.hi (s.getReg rs))
  refine ⟨⟨?_, hmthi⟩, ⟨?_, u, hu, hlo, hhi⟩⟩
  all_goals simp [decodeFunct]

end Sys2Proof.Machine
end

/-! What one instruction can answer, said once for all fifty; then what follows from it: O12, O19 to O28. -/

section
namespace Sys2Proof.Machine

/-! ### Faults of an access -/

/-- The exception of a read is not a trap, so it ends the run. -/
theorem raise_of_memRead_error {s : State} {a : Word} {n : Nat} {kind : AccessKind} {e : Fault}
    (h : memRead s a n kind = .error e) : raise e s = .fault e := by
  obtain ⟨rfl, -⟩ | ⟨rfl, -⟩ | ⟨rfl, -⟩ := memRead_error h <;> rfl

/-- A write that stores nothing answers one of two faults. -/
theorem memWrite_error {s : State} {a : Word} {n : Nat} {v : BitVec (8 * n)} {e : Fault} (h : memWrite s a n v = .error e) :
    (e = .addressError a .store ∧ aligned a n = false) ∨ (e = .accessFault a .store ∧ aligned a n = true) := by
  unfold memWrite accessException at h
  split_ifs at h <;> simp_all

/-- The exception of a write is not a trap, so it ends the run. -/
theorem raise_of_memWrite_error {s : State} {a : Word} {n : Nat} {v : BitVec (8 * n)} {e : Fault}
    (h : memWrite s a n v = .error e) : raise e s = .fault e := by
  obtain ⟨rfl, -⟩ | ⟨rfl, -⟩ := memWrite_error h <;> rfl

/-- Every address is a multiple of 1. -/
@[simp] theorem aligned_one (a : Word) : aligned a 1 = true := by simp [aligned, Nat.mod_one]

theorem aligned_eq_true_iff (a : Word) (n : Nat) : aligned a n = true ↔ a.toNat % n = 0 := by simp [aligned]

theorem aligned_eq_false_iff (a : Word) (n : Nat) : aligned a n = false ↔ a.toNat % n ≠ 0 := by simp [aligned]

/-! ### What an instruction can answer -/

/-- The answers of an instruction, by what it writes. Each says which of the claims' words (`destination`, `writesHi`,
`storedBytes`, ...) the instruction then meets; what a constructor's state leaves out, the instruction leaves unchanged. -/
inductive Answers (s : State) (i : Instr) : Result → Prop
  /-- one general register, then `pc + 4` -/
  | register {r : RegNo} (v : Word) (hdest : destination i = some r) (htrap : isTrap i = false) :
      Answers s i (.next (s.setReg r v).advance)
  /-- `hi` and `lo`, the one the rule does not name keeping its value, then `pc + 4` -/
  | hiLo {h l : Word} (hhi : writesHi i = false → h = s.hi) (hlo : writesLo i = false → l = s.lo)
      (htrap : isTrap i = false) : Answers s i (.next (s.setHiLo h l).advance)
  /-- two draws in `hi` and `lo`, then `pc + 4` -/
  | draws {h l : Word} (hhi : writesHi i = true) (hlo : writesLo i = true) (hdiv : isDivision i = true)
      (htrap : isTrap i = false) : Answers s i (.next { (s.setHiLo h l).advance with draws := s.draws + 2 })
  /-- bytes of memory, within the address space, then `pc + 4` -/
  | stored {ea : Word} {bs : List Byte} (hbytes : storedBytes s i = some (ea, bs.length))
      (hend : ea.toNat + bs.length ≤ 4294967296) (htrap : isTrap i = false) :
      Answers s i (.next (State.advance { s with mem := Memory.writeBytes s.mem ea.toNat bs }))
  /-- `pc` alone -/
  | goto {a : Word} (hpc : transfersControl i = true)
      (halign : jumpsToRegister i = false → s.pc.toNat % 4 = 0 → a.toNat % 4 = 0) (htrap : isTrap i = false) :
      Answers s i (.next (s.setPc a))
  /-- the link register and `pc` -/
  | link {a : Word} (hdest : destination i = some linkReg) (hpc : transfersControl i = true)
      (halign : jumpsToRegister i = false → s.pc.toNat % 4 = 0 → a.toNat % 4 = 0) (htrap : isTrap i = false) :
      Answers s i (.next ((s.setReg linkReg (linkAddress s)).setPc a))
  /-- whatever the environment resumes a trap with -/
  | resumed {code : Nat} {a : Arch} (hi : i = .trap code) (ha : some a ∈ answersTo s.trapEnv code s.toArch) :
      Answers s i (.next (resume s a))
  /-- an exception of the instruction's row that ends the run -/
  | raised {e : Fault} (he : canRaise s i e) : Answers s i (.fault e)

variable {s : State} {i : Instr}

theorem answers_finishUnlessOverflow {o : Bool} {r : RegNo} {v : Word} (hdest : destination i = some r)
    (htrap : isTrap i = false) (hraise : s.platform.ovf = .fault → canRaise s i .integerOverflow) :
    Answers s i (finishUnlessOverflow s o r v) := by
  obtain ⟨h, hovf, -⟩ | ⟨h, -⟩ := finishUnlessOverflow_cases s o r v
  · exact h ▸ .raised (hraise hovf)
  · exact h ▸ .register v hdest htrap

theorem answers_load {ea : Word} {n : Nat} {ext : BitVec (8 * n) → Word} {r : RegNo} (hdest : destination i = some r)
    (htrap : isTrap i = false) (hmis : aligned ea n = false → canRaise s i (.addressError ea .load))
    (hmap : canRaise s i (.accessFault ea .load)) (hunw : canRaise s i (.unwrittenByte ea .load)) :
    Answers s i (load s r ea n ext) := by
  unfold load
  split
  · exact .register _ hdest htrap
  next e he =>
    rw [raise_of_memRead_error he]
    obtain ⟨rfl, h⟩ | ⟨rfl, -⟩ | ⟨rfl, -⟩ := memRead_error he
    · exact .raised (hmis h)
    · exact .raised hmap
    · exact .raised hunw

theorem answers_store {ea : Word} {n : Nat} {v : BitVec (8 * n)} (hn : n = 1 ∨ n = 2 ∨ n = 4)
    (hbytes : storedBytes s i = some (ea, n)) (htrap : isTrap i = false)
    (hmis : aligned ea n = false → canRaise s i (.addressError ea .store)) (hmap : canRaise s i (.accessFault ea .store)) :
    Answers s i (store s ea n v) := by
  unfold store
  split
  next t ht =>
    obtain ⟨halign, -, rfl⟩ := (memWrite_eq_ok_iff _ _ _ _ _).1 ht
    have hlen := length_splitBytes s.platform.endian n v
    exact .stored (by rw [hlen, hbytes]) (by rw [hlen]; exact aligned_end halign hn) htrap
  next e he =>
    rw [raise_of_memWrite_error he]
    obtain ⟨rfl, h⟩ | ⟨rfl, -⟩ := memWrite_error he
    · exact .raised (hmis h)
    · exact .raised hmap

theorem answers_division {c : Prop} [Decidable c] {h l : Word} (hhi : writesHi i = true) (hlo : writesLo i = true)
    (hdiv : isDivision i = true) (htrap : isTrap i = false) :
    Answers s i (if c then finishDivByZero s else finishHiLo s h l) := by
  split
  · exact .draws hhi hlo hdiv htrap
  · exact .hiLo (by simp [hhi]) (by simp [hlo]) htrap

/-- The targets of branches and relative jumps stay at multiples of 4 (R69). -/
theorem toNat_mod_four_of_offset {n : Nat} {pc : Word} (x : BitVec n) (h : pc.toNat % 4 = 0) :
    (pc + 4#32 + (x.signExtend 32 <<< 2)).toNat % 4 = 0 := by
  rw [pc_add_four_add_signExtend, BitVec.toNat_ofInt]; omega

theorem toNat_add_four_mod_four {pc : Word} (h : pc.toNat % 4 = 0) : (pc + 4#32).toNat % 4 = 0 := by
  rw [BitVec.toNat_add]; simp; omega

theorem answers_branchIf {c : Bool} {imm : BitVec 16} (hpc : transfersControl i = true) (htrap : isTrap i = false) :
    Answers s i (branchIf s c imm) := by
  rw [branchIf_eq]
  refine .goto hpc (fun _ h => ?_) htrap
  split
  · exact toNat_mod_four_of_offset imm h
  · exact toNat_add_four_mod_four h

theorem answers_trap (code : Nat) : Answers s (.trap code) (execTrap code s) := by
  simp only [execTrap, raise]
  split
  next a ha =>
    obtain ⟨-, hnone⟩ | hmem := chooseAnswer_mem s.traps (answersTo s.trapEnv code s.toArch)
    · simp [hnone] at ha
    · exact .resumed rfl (ha ▸ hmem)
  · exact .raised rfl

/-- What every instruction can answer: its arm of `exec` is one of the shapes above. -/
theorem exec_answers (i : Instr) (s : State) : Answers s i (exec i s) := by
  cases i with
  | add | addi | sub => exact answers_finishUnlessOverflow rfl rfl fun hovf => ⟨hovf, rfl⟩
  | addu | addiu | and | andi | nor | or | ori | sll | sllv | sra | srav | srl | srlv | subu | xor | xori
  | lhi | llo | slt | sltu | slti | sltiu | mfhi | mflo => exact .register _ rfl rfl
  | div | divu => exact answers_division rfl rfl rfl rfl
  | mult | multu => exact .hiLo nofun nofun rfl
  | mthi => exact .hiLo nofun (fun _ => rfl) rfl
  | mtlo => exact .hiLo (fun _ => rfl) nofun rfl
  | beq | bgtz | blez | bne => exact answers_branchIf rfl rfl
  | j off => exact .goto rfl (fun _ => toNat_mod_four_of_offset off) rfl
  | jal off => exact .link rfl rfl (fun _ => toNat_mod_four_of_offset off) rfl
  | jalr => exact .link rfl rfl nofun rfl
  | jr => exact .goto rfl nofun rfl
  | lb | lbu => exact answers_load rfl rfl (by simp) (.inl rfl) (.inr rfl)
  | lh | lhu | lw => exact answers_load rfl rfl (fun _ => .inl rfl) (.inr (.inl rfl)) (.inr (.inr rfl))
  | sb => exact answers_store (by decide) rfl rfl (by simp) rfl
  | sh | sw => exact answers_store (by decide) rfl rfl (fun _ => .inl rfl) (.inr rfl)
  | trap code => exact answers_trap code

theorem answers_of_exec_eq {res : Result} (h : exec i s = res) : Answers s i res := h ▸ exec_answers i s

/-! ### Frames of every instruction -/

/-- Settles O12: no shape of answer is a refusal, and the exceptions of the step end the run or resume a trap. -/
theorem noInstructionIsRefused : Obligations.NoInstructionIsRefused := by
  have hexec : ∀ (i : Instr) (s : State) (r : Refusal), exec i s ≠ .refused r :=
    fun i s r h => nomatch answers_of_exec_eq h
  refine ⟨hexec, fun s r h => ?_⟩
  unfold step at h
  split at h
  next e he => rw [raise_of_memRead_error he] at h; cases h
  next w _ =>
    split at h
    · cases h
    next i _ => exact hexec i s r h

/-- Settles O26: only a resumed trap counts, and only the shape of a division by zero draws. -/
theorem modelFieldsChangeOnlyWhereSaid : Obligations.ModelFieldsChangeOnlyWhereSaid := by
  intro i s t h
  cases answers_of_exec_eq h with
  | register _ _ htrap | hiLo _ _ htrap | stored _ _ htrap | goto _ _ htrap | link _ _ _ htrap => simp [htrap]
  | draws _ _ hdiv htrap => simp [htrap, hdiv]
  | resumed hi => subst hi; simp [isTrap]

/-- Settles O20: a step that goes on is one instruction's execution. -/
theorem stepKeepsThePlatform : Obligations.StepKeepsThePlatform := by
  intro s t h
  obtain ⟨w, i, -, -, hi⟩ := step_eq_next h
  obtain ⟨hplat, henv, htraps, htraps', -, hdraws⟩ := modelFieldsChangeOnlyWhereSaid i s t hi
  refine ⟨hplat, henv, ?_, ?_⟩
  · cases htrap : isTrap i
    · exact (htraps htrap).ge
    · rw [htraps' htrap]; exact Nat.le_succ _
  · obtain h | h := hdraws <;> rw [h]
    exact Nat.le_add_right _ _

/-- Settles O22: only two shapes write a general register, and it is their destination. -/
theorem onlyTheDestinationRegisterChanges : Obligations.OnlyTheDestinationRegisterChanges := by
  intro i s t hnt h q hq
  cases answers_of_exec_eq h with
  | register _ hdest | link hdest =>
    obtain hne | rfl := hq
    · have hqr : q ≠ _ := fun hqr => hne (hqr ▸ hdest)
      simp [getReg_setReg_of_ne _ _ _ _ hqr]
    · simp
  | hiLo | draws | stored | goto => rfl
  | resumed hi => subst hi; cases hnt

/-- Settles O23: two shapes write `hi` and `lo`, and keep the one the instruction does not name. -/
theorem onlySixInstructionsWriteHiLo : Obligations.OnlySixInstructionsWriteHiLo := by
  intro i s t hnt h
  cases answers_of_exec_eq h with
  | register | stored | goto | link => exact ⟨fun _ => rfl, fun _ => rfl⟩
  | hiLo hhi hlo => exact ⟨hhi, hlo⟩
  | draws hhi hlo => simp [hhi, hlo]
  | resumed hi => subst hi; cases hnt

/-- Settles O24: only stores change memory, and they change no byte outside those they store. -/
theorem onlyStoredBytesChange : Obligations.OnlyStoredBytesChange := by
  intro i s t hnt h
  cases answers_of_exec_eq h with
  | register | hiLo | draws | goto | link => exact ⟨fun _ _ => rfl, fun _ _ _ _ _ => rfl⟩
  | @stored ea bs hbytes =>
    refine ⟨fun hnone => absurd (hbytes.symm.trans hnone) (by simp), fun ea' n hsome a hout => ?_⟩
    obtain ⟨rfl, rfl⟩ := Prod.mk.inj (Option.some.inj (hbytes.symm.trans hsome))
    simp only [inBytes] at hout
    exact read_writeBytes_of_outside _ _ _ _ (by omega)
  | resumed hi => subst hi; cases hnt

/-- Settles O25: every shape that does not transfer control advances. -/
theorem otherInstructionsAdvancePc : Obligations.OtherInstructionsAdvancePc := by
  intro i s t hpc h
  cases answers_of_exec_eq h with
  | register | hiLo | draws | stored => exact BitVec.toNat_add _ _
  | goto hgo | link _ hgo => rw [hpc] at hgo; cases hgo
  | resumed hi => subst hi; cases hpc

/-- Settles O21: an advance adds 4, and the targets that come from no register are whole words away. -/
theorem otherInstructionsKeepPcAligned : Obligations.OtherInstructionsKeepPcAligned := by
  intro i s t hpc hjump hnt h
  cases answers_of_exec_eq h with
  | register | hiLo | draws | stored => exact toNat_add_four_mod_four hpc
  | goto _ halign | link _ _ halign => exact halign hjump hpc
  | resumed hi => subst hi; cases hnt

/-! ### The canonical form of memory -/

theorem wf_iff (s : State) :
    s.wf = true ↔ Memory.wf s.mem = true ∧ ∀ rule ∈ s.trapEnv, rule.answer.wf = true := by
  simp [State.wf]

/-- A state record the environment resumes with has a canonical memory: its own, or that of the state at the trap. -/
theorem wf_mem_of_resumption {answer : TrapAnswer} {a b : Arch} (hwf : answer.wf = true) (ha : Memory.wf a.mem = true)
    (h : answer.resumption a = some b) : Memory.wf b.mem = true := by
  cases answer <;> simp only [TrapAnswer.resumption, Option.some.injEq, reduceCtorEq] at h
  case resume a' => exact h ▸ hwf
  case resumeNext => exact h ▸ ha

/-- Every instruction keeps memory canonical: a store writes within the address space, and a resumed trap takes one of the
environment's records. -/
theorem exec_preserves_mem_wf {i : Instr} {s t : State} (hs : s.wf = true) (h : exec i s = .next t) :
    Memory.wf t.mem = true := by
  obtain ⟨hmem, henv⟩ := (wf_iff s).1 hs
  cases answers_of_exec_eq h with
  | register | hiLo | draws | goto | link => exact hmem
  | stored _ hend => exact wf_writeBytes _ _ _ hmem hend
  | resumed _ ha =>
    obtain ⟨rule, hrule, -, hres⟩ := (mem_answersTo _ _ _ _).1 ha
    exact wf_mem_of_resumption (henv rule hrule) hmem hres

/-- Settles O19: memory stays canonical by `exec_preserves_mem_wf`, and no step changes the environment's records. -/
theorem stepKeepsMemoryCanonical : Obligations.StepKeepsMemoryCanonical := by
  intro s t hs h
  obtain ⟨w, i, -, -, hi⟩ := step_eq_next h
  obtain ⟨-, htrapEnv, -⟩ := stepKeepsThePlatform s t h
  obtain ⟨-, henv⟩ := (wf_iff s).1 hs
  exact (wf_iff t).2 ⟨exec_preserves_mem_wf hs hi, htrapEnv ▸ henv⟩

/-! ### What an instruction raises (R202) -/

/-- Settles O28: the one shape that ends the run carries an exception of the row. -/
theorem instructionsRaiseOnlyWhatTheirRowNames : Obligations.InstructionsRaiseOnlyWhatTheirRowNames := by
  intro i s e h
  cases answers_of_exec_eq h with
  | raised he => exact he

/-- The instructions of the last row of R202 have no exception in their row. -/
theorem not_canRaise_of_neverRaises {i : Instr} (h : neverRaises i = true) (s : State) (e : Fault) :
    ¬ canRaise s i e := by
  cases i <;> cases h <;> exact id

/-- Settles O27: an instruction answers with a next state or an exception of its row, and here the row is empty. -/
theorem thirtyEightInstructionsNeverRaise : Obligations.ThirtyEightInstructionsNeverRaise := by
  intro i s hnever
  cases h : exec i s with
  | next t => exact ⟨t, rfl⟩
  | fault e => exact absurd (instructionsRaiseOnlyWhatTheirRowNames i s e h) (not_canRaise_of_neverRaises hnever s e)
  | refused r => exact absurd h (noInstructionIsRefused.1 i s r)

end Sys2Proof.Machine
end

/-! Proofs for the encoding: O1 to O3 and O5 to O7. -/

section
namespace Sys2Proof

/-! ### Every instruction's word decodes to it (R66, R70) -/

/-- Settles O1: fourteen fixed words, decoded by evaluation. -/
theorem exampleWordsDecode : Obligations.ExampleWordsDecode := by
  unfold Obligations.ExampleWordsDecode
  decide

/-- A trap code in the range of R76 is the number its 26-bit field holds. -/
theorem toNat_ofNat_code {code : Nat} (h : code < 67108864) : (BitVec.ofNat 26 code).toNat = code :=
  Nat.mod_eq_of_lt h

/-- Settles O2: the decoder reads off a word built from fields the opcode (with the function code) and the fields it was
built from; the two numeric operands survive because they are in range. -/
theorem decodeOfEncodeIsTheInstruction : Obligations.DecodeOfEncodeIsTheInstruction := by
  intro i hwf
  cases i with
  | add | addu | and | nor | or | sub | subu | xor | slt | sltu | sllv | srav | srlv | div | divu | mult | multu
  | jalr | jr | mfhi | mflo | mthi | mtlo => simp [encode, decodeFunct]
  | sll | sra | srl => simp [encode, decodeFunct, toNat_ofNat_shift (of_decide_eq_true hwf)]
  | addi | addiu | andi | ori | xori | slti | sltiu | lhi | llo | beq | bne | bgtz | blez | lb | lbu | lh | lhu | lw
  | sb | sh | sw => simp [encode, decode]
  | j | jal => simp [encode]
  | trap => simp [encode, decode, toNat_ofNat_code (of_decide_eq_true hwf)]

/-! ### What the decoder answers is well-formed (R81) -/

theorem wellFormedShift_fieldH (w : Word) : wellFormedShift (fieldH w) = true :=
  decide_eq_true (BitVec.isLt _)

theorem wellFormedCode_fieldA (w : Word) : wellFormedCode (fieldA w).toNat = true :=
  decide_eq_true (fieldA w).isLt

theorem wellFormed_of_decodeFunct {w : Word} {i : Instr} (h : decodeFunct w = .ok i) : i.wellFormed = true := by
  unfold decodeFunct at h
  split at h <;> cases h <;> simp [Instr.wellFormed, wellFormedShift_fieldH]

/-- Settles O3: the two numeric operands are the values of a 5-bit and of a 26-bit field. -/
theorem decodedInstructionsAreWellFormed : Obligations.DecodedInstructionsAreWellFormed := by
  intro w i h
  unfold decode at h
  split at h
  case h_1 => exact wellFormed_of_decodeFunct h
  all_goals cases h <;> simp [Instr.wellFormed, wellFormedCode_fieldA]

/-! ### Used and unused fields (R74) -/

@[simp] theorem regBits_toFin (x : BitVec 5) : regBits x.toFin = x := rfl

theorem and_ones5 (x : BitVec 5) : x &&& 0x1F#5 = x := BitVec.and_allOnes

theorem and_ones16 (x : BitVec 16) : x &&& 0xFFFF#16 = x := BitVec.and_allOnes

theorem and_ones32 (x : Word) : x &&& 0xFFFFFFFF#32 = x := BitVec.and_allOnes

section
variable (s t d h : BitVec 5) (op f : BitVec 6) (i : BitVec 16)

/-- A mask on the register fields of a Register-encoding word acts field by field. -/
theorem regWord_and_fieldMask (m : Word) (s' t' d' h' : BitVec 5)
    (hm : 0x3F#6 ++ s' ++ t' ++ d' ++ h' ++ 0x3F#6 = m) :
    regWord s t d h f &&& m = regWord (s &&& s') (t &&& t') (d &&& d') (h &&& h') f :=
  hm ▸ and_append_eq (and_append_eq (and_append_eq (and_append_eq (and_append_eq (and_ones6 _) rfl) rfl) rfl) rfl) (and_ones6 f)

/-- A mask on the register fields of an Immediate-encoding word acts field by field. -/
theorem immWord_and_fieldMask (m : Word) (s' t' : BitVec 5) (hm : 0x3F#6 ++ s' ++ t' ++ 0xFFFF#16 = m) :
    immWord op s t i &&& m = immWord op (s &&& s') (t &&& t') i :=
  hm ▸ and_append_eq (and_append_eq (and_append_eq (and_ones6 _) rfl) rfl) (and_ones16 i)

/-- The used bits of ArithLog and ShiftV: all but `h`. -/
theorem regWord_and_withoutH : regWord s t d h f &&& 0xFFFFF83F#32 = regWord s t d 0#5 f := by
  simpa only [and_ones5, BitVec.and_zero] using regWord_and_fieldMask s t d h f 0xFFFFF83F#32 0x1F#5 0x1F#5 0x1F#5 0#5 rfl

/-- The used bits of DivMult: all but `d`, `h`. -/
theorem regWord_and_withoutDH : regWord s t d h f &&& 0xFFFF003F#32 = regWord s t 0#5 0#5 f := by
  simpa only [and_ones5, BitVec.and_zero] using regWord_and_fieldMask s t d h f 0xFFFF003F#32 0x1F#5 0x1F#5 0#5 0#5 rfl

/-- The used bits of Shift: all but `s`. -/
theorem regWord_and_withoutS : regWord s t d h f &&& 0xFC1FFFFF#32 = regWord 0#5 t d h f := by
  simpa only [and_ones5, BitVec.and_zero] using regWord_and_fieldMask s t d h f 0xFC1FFFFF#32 0#5 0x1F#5 0x1F#5 0x1F#5 rfl

/-- The used bits of JumpR and MoveTo: all but `t`, `d`, `h`. -/
theorem regWord_and_withoutTDH : regWord s t d h f &&& 0xFFE0003F#32 = regWord s 0#5 0#5 0#5 f := by
  simpa only [and_ones5, BitVec.and_zero] using regWord_and_fieldMask s t d h f 0xFFE0003F#32 0x1F#5 0#5 0#5 0#5 rfl

/-- The used bits of MoveFrom: all but `s`, `t`, `h`. -/
theorem regWord_and_withoutSTH : regWord s t d h f &&& 0xFC00F83F#32 = regWord 0#5 0#5 d 0#5 f := by
  simpa only [and_ones5, BitVec.and_zero] using regWord_and_fieldMask s t d h f 0xFC00F83F#32 0#5 0#5 0x1F#5 0#5 rfl

/-- The used bits of LoadI: all but `s`. -/
theorem immWord_and_withoutS : immWord op s t i &&& 0xFC1FFFFF#32 = immWord op 0#5 t i := by
  simpa only [and_ones5, BitVec.and_zero] using immWord_and_fieldMask s t op i 0xFC1FFFFF#32 0#5 0x1F#5 rfl

/-- The used bits of BranchZ: all but `t`. -/
theorem immWord_and_withoutT : immWord op s t i &&& 0xFFE0FFFF#32 = immWord op s 0#5 i := by
  simpa only [and_ones5, BitVec.and_zero] using immWord_and_fieldMask s t op i 0xFFE0FFFF#32 0x1F#5 0#5 rfl

end

/-- Every word is an Immediate-encoding word (R64). -/
theorem immWord_fields (w : Word) : immWord (fieldOp w) (regBits (fieldS w)) (regBits (fieldT w)) (fieldI w) = w := by
  apply BitVec.eq_of_toNat_eq
  have := w.isLt
  simp only [immWord_toNat, fieldOp, fieldS, fieldT, fieldI, regBits_toFin, extract_toNat]; omega

/-- The encoder writes the used fields of a word of the function grid back, and zeros in the others. -/
theorem encode_of_decodeFunct {s t d h : BitVec 5} {f : BitVec 6} {i : Instr}
    (hdec : decodeFunct (regWord s t d h f) = .ok i) : encode i = regWord s t d h f &&& i.usedBits := by
  simp only [decodeFunct, fieldF_regWord, fieldS_regWord, fieldT_regWord, fieldD_regWord, fieldH_regWord] at hdec
  split at hdec <;> cases hdec <;>
    simp only [encode, Instr.usedBits, regBits_toFin, BitVec.ofNat_toNat, BitVec.setWidth_eq, regWord_and_withoutH,
      regWord_and_withoutDH, regWord_and_withoutS, regWord_and_withoutTDH, regWord_and_withoutSTH]

/-- The encoder writes the used fields of a word back, and zeros in the others. -/
theorem encode_of_decode {w : Word} {i : Instr} (h : decode w = .ok i) : encode i = w &&& i.usedBits := by
  have himm := immWord_fields w
  have hjump := jumpWord_fields w
  have hnoS : immWord (fieldOp w) 0#5 (regBits (fieldT w)) (fieldI w) = w &&& 0xFC1FFFFF#32 := by
    conv_rhs => rw [← himm, immWord_and_withoutS]
  have hnoT : immWord (fieldOp w) (regBits (fieldS w)) 0#5 (fieldI w) = w &&& 0xFFE0FFFF#32 := by
    conv_rhs => rw [← himm, immWord_and_withoutT]
  unfold decode at h
  split at h
  case h_1 h0 =>
    rw [← regWord_fields h0] at h ⊢
    exact encode_of_decodeFunct h
  all_goals cases h
  all_goals
    rename_i hop
    rw [hop] at himm hjump hnoS hnoT
    simp only [encode, Instr.usedBits, and_ones32, BitVec.ofNat_toNat, BitVec.setWidth_eq, himm, hjump, hnoS, hnoT]

/-- The used bits of an instruction as a function of its row of R70. -/
def usedBitsOfRow (row : Word × Word) : Word :=
  if row.1 = 0xFC000000#32 then
    if row.2 = 0x64000000#32 ∨ row.2 = 0x60000000#32 then 0xFC1FFFFF#32
    else if row.2 = 0x1C000000#32 ∨ row.2 = 0x18000000#32 then 0xFFE0FFFF#32
    else 0xFFFFFFFF#32
  else if row.2 = 0x00#32 ∨ row.2 = 0x02#32 ∨ row.2 = 0x03#32 then 0xFC1FFFFF#32
  else if row.2 = 0x08#32 ∨ row.2 = 0x09#32 ∨ row.2 = 0x11#32 ∨ row.2 = 0x13#32 then 0xFFE0003F#32
  else if row.2 = 0x10#32 ∨ row.2 = 0x12#32 then 0xFC00F83F#32
  else if row.2 = 0x18#32 ∨ row.2 = 0x19#32 ∨ row.2 = 0x1A#32 ∨ row.2 = 0x1B#32 then 0xFFFF003F#32
  else 0xFFFFF83F#32

theorem usedBits_eq_usedBitsOfRow (i : Instr) : i.usedBits = usedBitsOfRow i.row := by
  cases i <;> rfl

/-- The opcode and the function code are among the used bits. -/
theorem rowMask_and_usedBits (i : Instr) : i.usedBits &&& i.row.1 = i.row.1 := by
  cases i <;> simp only [Instr.usedBits, Instr.row, -BitVec.reduceAnd] <;> decide

/-- Settles O5: the encoder writes the used fields back by `encode_of_decode`. A word that agrees on the used bits is in
the same row, so it decodes to an instruction with the same used bits, hence with the same encoding: the same one. -/
theorem unusedFieldsAreIgnored : Obligations.UnusedFieldsAreIgnored := by
  intro w i h
  refine ⟨encode_of_decode h, fun w' hw' => ?_⟩
  have hrow : w' &&& i.row.1 = i.row.2 :=
    calc w' &&& i.row.1 = w' &&& i.usedBits &&& i.row.1 := by rw [BitVec.and_assoc, rowMask_and_usedBits]
      _ = w &&& i.row.1 := by rw [hw', BitVec.and_assoc, rowMask_and_usedBits]
      _ = i.row.2 := (wordIsInstructionWhenMaskMatches w i).2 ⟨i, h, rfl⟩
  obtain ⟨i', h', hrow'⟩ := (wordIsInstructionWhenMaskMatches w' i).1 hrow
  have hencode : encode i' = encode i := by
    rw [encode_of_decode h', encode_of_decode h, usedBits_eq_usedBitsOfRow i', hrow', ← usedBits_eq_usedBitsOfRow, hw']
  have hback := decodeOfEncodeIsTheInstruction i (decodedInstructionsAreWellFormed w i h)
  rw [h', ← hback, ← hencode]
  exact (decodeOfEncodeIsTheInstruction i' (decodedInstructionsAreWellFormed w' i' h')).symm

/-! ### Words as shifted fields (R63 to R65) -/

/-- Appending is shifting and joining, in any wider word. -/
theorem setWidth_append {m n : Nat} (k : Nat) (x : BitVec m) (y : BitVec n) :
    (x ++ y).setWidth k = (x.setWidth k <<< n) ||| y.setWidth k := by
  apply BitVec.eq_of_getLsbD_eq
  intro j hj
  by_cases hjn : j < n
  · simp [BitVec.getLsbD_append, hjn, hj]
  · have := BitVec.getLsbD_of_ge y j (by omega)
    simp [BitVec.getLsbD_append, hjn, hj, this]

/-- Settles O6: each format appends its fields, and every further field shifts those before it by its width. -/
theorem fieldsStandAtTheirBits : Obligations.FieldsStandAtTheirBits := by
  refine ⟨fun s t d h f => ?_, fun op s t i => ?_, fun op a => ?_⟩
  · have hword : regWord s t d h f = (0x00#6 ++ s ++ t ++ d ++ h ++ f).setWidth 32 := (BitVec.setWidth_eq _).symm
    rw [hword, setWidth_append, setWidth_append, setWidth_append, setWidth_append, setWidth_append]
    simp [BitVec.shiftLeft_or_distrib, ← BitVec.shiftLeft_add]
  · have hword : immWord op s t i = (op ++ s ++ t ++ i).setWidth 32 := (BitVec.setWidth_eq _).symm
    rw [hword, setWidth_append, setWidth_append, setWidth_append]
    simp [BitVec.shiftLeft_or_distrib, ← BitVec.shiftLeft_add]
  · have hword : jumpWord op a = (op ++ a).setWidth 32 := (BitVec.setWidth_eq _).symm
    rw [hword, setWidth_append]

end Sys2Proof

namespace Sys2Proof.Machine

/-! ### Unassigned words (R71, R72, R78) -/

/-- The function grid answers exactly on the assigned values of `f` (R72). -/
theorem exists_decodeFunct_iff (w : Word) : (∃ i, decodeFunct w = .ok i) ↔ fieldF w ∉ unassignedFuncts := by
  have hgrid : ∀ f : BitVec 6, f ∉ unassignedFuncts → f ∈ [0x00, 0x02, 0x03, 0x04, 0x06, 0x07, 0x08, 0x09, 0x10, 0x11,
      0x12, 0x13, 0x18, 0x19, 0x1A, 0x1B, 0x20, 0x21, 0x22, 0x23, 0x24, 0x25, 0x26, 0x27, 0x2A, 0x2B] := by decide
  unfold decodeFunct
  split
  case h_27 =>
    have hf : fieldF w ∈ unassignedFuncts := by
      by_contra h
      have hassigned := hgrid _ h
      simp_all
    simp [hf]
  all_goals simp [unassignedFuncts, *]

/-- The decoder answers on every word but the unassigned ones. -/
theorem exists_decode_iff (w : Word) : (∃ i, decode w = .ok i) ↔ ¬ unassignedWord w := by
  have hgrid : ∀ op : BitVec 6, op ∉ unassignedOps → op ∈ [0x00, 0x02, 0x03, 0x04, 0x05, 0x06, 0x07, 0x08, 0x09, 0x0A,
      0x0B, 0x0C, 0x0D, 0x0E, 0x18, 0x19, 0x1A, 0x20, 0x21, 0x23, 0x24, 0x25, 0x28, 0x29, 0x2B] := by decide
  have hword : unassignedWord w ↔
      fieldOp w ∈ unassignedOps ∨ (fieldOp w = 0#6 ∧ fieldF w ∈ unassignedFuncts) := Iff.rfl
  rw [hword]
  unfold decode
  split
  case h_1 h0 => simpa [h0, unassignedOps] using exists_decodeFunct_iff w
  case h_26 =>
    have hop : fieldOp w ∈ unassignedOps := by
      by_contra h
      have hassigned := hgrid _ h
      simp_all
    simp [hop]
  all_goals simp [unassignedOps, *]

/-- Settles O7: the grids of R71 and R72 are complete, and a step whose word has no decoding raises. -/
theorem unassignedWordsRaiseReservedInstruction : Obligations.UnassignedWordsRaiseReservedInstruction := by
  refine ⟨fun w => (iff_not_comm.1 (exists_decode_iff w)), fun s w hfetch hw => ?_⟩
  unfold step
  rw [hfetch]
  dsimp only
  split
  · rfl
  next i hi => exact absurd hw ((exists_decode_iff w).1 ⟨i, hi⟩)

end Sys2Proof.Machine
end

/-! Proofs about registers, memory accesses, the step, loads and stores: O8 to O11, O13 to O18 and O49 to O55. -/

section
namespace Sys2Proof.Machine

/-! ### Registers and reset -/

/-- Settles O13: the rules of `setReg` and `getReg`. -/
theorem registersReadAsWritten : Obligations.RegistersReadAsWritten :=
  fun s r q v => ⟨getReg_zero s, setReg_zero s v, getReg_setReg_same s r v, getReg_setReg_of_ne s r q v⟩

/-- Settles O17: by evaluation of the reset state. -/
theorem resetLeavesAlignedPcAndEmptyMemory : Obligations.ResetLeavesAlignedPcAndEmptyMemory :=
  ⟨getReg_zero _, by decide, fun _ => rfl⟩

/-- Settles O18: memory and the environment's relation are empty. -/
theorem resetStateIsCanonical : Obligations.ResetStateIsCanonical :=
  (wf_iff State.reset).2 ⟨rfl, nofun⟩

/-! ### Reads (R42) -/

section
variable {s : State} {a : Word} {n : Nat} {kind : AccessKind}

theorem memRead_of_misaligned (h : a.toNat % n ≠ 0) : memRead s a n kind = .error (.addressError a kind) := by
  rw [memRead, accessException_of_misaligned ((aligned_eq_false_iff a n).2 h)]

theorem memRead_of_unmapped (h : a.toNat % n = 0) (hm : Platform.mapped s.platform a n kind = false) :
    memRead s a n kind = .error (.accessFault a kind) := by
  rw [memRead, accessException_of_unmapped ((aligned_eq_true_iff a n).2 h) hm]

theorem memRead_of_unwritten (h : a.toNat % n = 0) (hm : Platform.mapped s.platform a n kind = true)
    (hb : Memory.readBytes s.mem a.toNat n = none) : memRead s a n kind = .error (.unwrittenByte a kind) := by
  rw [memRead, (accessException_eq_none_iff s a n kind).2 ⟨(aligned_eq_true_iff a n).2 h, hm⟩]
  simp only [hb]

theorem memRead_of_readBytes {bs : List Byte} (h : a.toNat % n = 0) (hm : Platform.mapped s.platform a n kind = true)
    (hb : Memory.readBytes s.mem a.toNat n = some bs) : memRead s a n kind = .ok (joinBytes s.platform.endian n bs) :=
  (memRead_eq_ok_iff s a n kind _).2 ⟨(aligned_eq_true_iff a n).2 h, hm, bs, hb, rfl⟩

end

section
variable {m : Memory} {a : Nat} {b0 b1 b2 b3 : Byte}

theorem readBytes_one (h0 : Memory.read m a = some b0) : Memory.readBytes m a 1 = some [b0] := by
  simp [Memory.readBytes, h0]

theorem readBytes_two (h0 : Memory.read m a = some b0) (h1 : Memory.read m (a + 1) = some b1) :
    Memory.readBytes m a 2 = some [b0, b1] := by
  simp [Memory.readBytes, h0, h1]

theorem readBytes_four (h0 : Memory.read m a = some b0) (h1 : Memory.read m (a + 1) = some b1)
    (h2 : Memory.read m (a + 2) = some b2) (h3 : Memory.read m (a + 3) = some b3) :
    Memory.readBytes m a 4 = some [b0, b1, b2, b3] := by
  simp [Memory.readBytes, h0, h1, h2, h3]

end

/-! The value of one, two and four bytes (R42, R44): the first most significant under `big`, the last under `little`. -/

section
variable (b0 b1 b2 b3 : Byte)

theorem joinBytes_one (e : Endian) : joinBytes e 1 [b0] = b0 := by
  cases e <;> exact BitVec.eq_of_toNat_eq (by simp [joinBytes, mostSignificantFirst, bytesToNat])

theorem joinBytes_big_two : joinBytes .big 2 [b0, b1] = b0 ++ b1 := by
  apply BitVec.eq_of_toNat_eq
  have := b0.isLt; have := b1.isLt
  rw [append_toNat]
  simp [joinBytes, mostSignificantFirst, bytesToNat]; omega

theorem joinBytes_big_four : joinBytes .big 4 [b0, b1, b2, b3] = b0 ++ b1 ++ b2 ++ b3 := by
  apply BitVec.eq_of_toNat_eq
  have := b0.isLt; have := b1.isLt; have := b2.isLt; have := b3.isLt
  simp only [append_toNat]
  simp [joinBytes, mostSignificantFirst, bytesToNat]; omega

/-- Under `little` bytes join as their reversal does under `big`. -/
theorem joinBytes_little_two : joinBytes .little 2 [b0, b1] = b1 ++ b0 := joinBytes_big_two b1 b0

theorem joinBytes_little_four : joinBytes .little 4 [b0, b1, b2, b3] = b3 ++ b2 ++ b1 ++ b0 :=
  joinBytes_big_four b3 b2 b1 b0

end

/-- Settles O14: the exceptions by alignment and mapping; else the bytes read, joined in the machine's order. -/
theorem memReadAnswersInByteOrder : Obligations.MemReadAnswersInByteOrder := by
  intro s a kind _
  refine ⟨fun n _ h => memRead_of_misaligned h, fun n _ h hm => memRead_of_unmapped h hm, fun b0 hm h0 => ?_,
    fun b0 b1 ha hm h0 h1 => ?_, fun b0 b1 b2 b3 ha hm h0 h1 h2 h3 => ?_⟩
  · rw [memRead_of_readBytes (Nat.mod_one _) hm (readBytes_one h0), joinBytes_one]
  · rw [memRead_of_readBytes ha hm (readBytes_two h0 h1)]
    exact ⟨fun he => by rw [he, joinBytes_big_two], fun he => by rw [he, joinBytes_little_two]⟩
  · rw [memRead_of_readBytes ha hm (readBytes_four h0 h1 h2 h3)]
    exact ⟨fun he => by rw [he, joinBytes_big_four], fun he => by rw [he, joinBytes_little_four]⟩

/-! ### Writes (R43) -/

section
variable {s t : State} {a : Word} {n : Nat} {v : BitVec (8 * n)}

theorem memWrite_of_misaligned (h : a.toNat % n ≠ 0) : memWrite s a n v = .error (.addressError a .store) := by
  rw [memWrite, accessException_of_misaligned ((aligned_eq_false_iff a n).2 h)]

theorem memWrite_of_unmapped (h : a.toNat % n = 0) (hm : Platform.mapped s.platform a n .store = false) :
    memWrite s a n v = .error (.accessFault a .store) := by
  rw [memWrite, accessException_of_unmapped ((aligned_eq_true_iff a n).2 h) hm]

theorem memWrite_of_mapped (h : a.toNat % n = 0) (hm : Platform.mapped s.platform a n .store = true) :
    memWrite s a n v =
      .ok { s with mem := Memory.writeBytes s.mem a.toNat (splitBytes s.platform.endian n v) } :=
  (memWrite_eq_ok_iff s _ a n v).2 ⟨(aligned_eq_true_iff a n).2 h, hm, rfl⟩

/-- A write that answers a state has changed memory alone. -/
theorem eq_withMem_of_memWrite (h : memWrite s a n v = .ok t) : t = { s with mem := t.mem } := by
  obtain ⟨-, -, rfl⟩ := (memWrite_eq_ok_iff s t a n v).1 h
  rfl

theorem platform_of_memWrite (h : memWrite s a n v = .ok t) : t.platform = s.platform := by
  rw [eq_withMem_of_memWrite h]

theorem mod_of_memWrite (h : memWrite s a n v = .ok t) : a.toNat % n = 0 := by
  obtain ⟨halign, -, -⟩ := (memWrite_eq_ok_iff s t a n v).1 h
  exact (aligned_eq_true_iff a n).1 halign

theorem read_of_memWrite_outside (h : memWrite s a n v = .ok t) {b : Nat} (hb : ¬ inBytes b a n) :
    Memory.read t.mem b = Memory.read s.mem b := by
  obtain ⟨-, -, rfl⟩ := (memWrite_eq_ok_iff s t a n v).1 h
  simp only [inBytes] at hb
  exact read_writeBytes_of_outside _ _ _ _ (by rw [length_splitBytes]; omega)

/-- Each byte written reads as its part of the value, most significant first under `big`. -/
theorem read_of_memWrite_big (h : memWrite s a n v = .ok t) (he : s.platform.endian = .big) {k : Nat} (hk : k < n) :
    Memory.read t.mem (a.toNat + k) = some (v.extractLsb' (8 * (n - k - 1)) 8) := by
  obtain ⟨-, -, rfl⟩ := (memWrite_eq_ok_iff s t a n v).1 h
  have hlen : k < (splitBytes s.platform.endian n v).length := by rwa [length_splitBytes]
  rw [read_writeBytes_of_inside _ _ _ _ hlen]
  simp [he, splitBytes, byteOf, Nat.sub_right_comm]

/-- Each byte written reads as its part of the value, least significant first under `little`. -/
theorem read_of_memWrite_little (h : memWrite s a n v = .ok t) (he : s.platform.endian = .little) {k : Nat} (hk : k < n) :
    Memory.read t.mem (a.toNat + k) = some (v.extractLsb' (8 * k) 8) := by
  obtain ⟨-, -, rfl⟩ := (memWrite_eq_ok_iff s t a n v).1 h
  have hlen : k < (splitBytes s.platform.endian n v).length := by rwa [length_splitBytes]
  rw [read_writeBytes_of_inside _ _ _ _ hlen]
  simp [he, splitBytes, byteOf]

/-- Where memory holds the bytes a value was split into, a read of that size gives the value, under either byte order. -/
theorem memRead_of_mem_eq_writeBytes {u : State} {m : Memory} {kind : AccessKind} (hn : n = 1 ∨ n = 2 ∨ n = 4)
    (hmem : u.mem = Memory.writeBytes m a.toNat (splitBytes u.platform.endian n v)) (ha : a.toNat % n = 0)
    (hm : Platform.mapped u.platform a n kind = true) : memRead u a n kind = .ok v := by
  have hbytes := readBytes_writeBytes m a.toNat (splitBytes u.platform.endian n v)
  rw [length_splitBytes, ← hmem] at hbytes
  rw [memRead_of_readBytes ha hm hbytes, joinBytes_splitBytes _ n v hn]

/-- A value written is what a later read of that size gives there, in any state with that memory on that platform. -/
theorem memRead_of_memWrite {u : State} {kind : AccessKind} (hn : n = 1 ∨ n = 2 ∨ n = 4) (h : memWrite s a n v = .ok t)
    (hmem : u.mem = t.mem) (hplat : u.platform = t.platform) (hm : Platform.mapped s.platform a n kind = true) :
    memRead u a n kind = .ok v := by
  have ha := mod_of_memWrite h
  obtain ⟨-, -, rfl⟩ := (memWrite_eq_ok_iff s t a n v).1 h
  exact memRead_of_mem_eq_writeBytes hn (hplat ▸ hmem) ha (hplat ▸ hm)

end

/-- Settles O15: the exceptions by alignment and mapping; else the bytes of the value, in the machine's order. -/
theorem memWriteStoresExactlyItsBytes : Obligations.MemWriteStoresExactlyItsBytes := by
  intro s a n v _
  refine ⟨memWrite_of_misaligned, memWrite_of_unmapped, fun ha hm => ?_⟩
  have hw := memWrite_of_mapped ha hm (v := v)
  exact ⟨_, hw, rfl, fun k hk he => read_of_memWrite_big hw he hk, fun k hk he => read_of_memWrite_little hw he hk,
    fun b hb => read_of_memWrite_outside hw hb⟩

/-! ### Narrow reads of a word stored (R45) -/

/-- An offset within an aligned word does not wrap (R41). -/
theorem toNat_add_offset {a : Word} (ha : a.toNat % 4 = 0) {k : Nat} (hk : k < 4) :
    (a + BitVec.ofNat 32 k).toNat = a.toNat + k := by
  have := a.isLt
  rw [BitVec.toNat_add, BitVec.toNat_ofNat]; omega

/-- Two adjacent bytes of a word are the halfword at the lower one. -/
theorem extract_byte_append_byte (v : Word) (k : Nat) :
    (v.extractLsb' (k + 8) 8 ++ v.extractLsb' k 8 : BitVec (8 * 2)) = v.extractLsb' k 16 :=
  BitVec.extractLsb'_append_extractLsb'_eq_extractLsb' rfl

section
variable {s t : State} {a : Word} {v : BitVec 32} {k : Nat} {kind : AccessKind}

theorem memRead_byte_of_word_big (hw : memWrite s a 4 v = .ok t) (he : s.platform.endian = .big) (hk : k < 4)
    (hm : Platform.mapped s.platform (a + BitVec.ofNat 32 k) 1 kind = true) :
    memRead t (a + BitVec.ofNat 32 k) 1 kind = .ok (v.extractLsb' (24 - 8 * k) 8) := by
  have h0 := read_of_memWrite_big hw he hk
  rw [← toNat_add_offset (mod_of_memWrite hw) hk, show 8 * (4 - k - 1) = 24 - 8 * k by omega] at h0
  rw [← platform_of_memWrite hw] at hm
  rw [memRead_of_readBytes (Nat.mod_one _) hm (readBytes_one h0), joinBytes_one]

theorem memRead_byte_of_word_little (hw : memWrite s a 4 v = .ok t) (he : s.platform.endian = .little) (hk : k < 4)
    (hm : Platform.mapped s.platform (a + BitVec.ofNat 32 k) 1 kind = true) :
    memRead t (a + BitVec.ofNat 32 k) 1 kind = .ok (v.extractLsb' (8 * k) 8) := by
  have h0 := read_of_memWrite_little hw he hk
  rw [← toNat_add_offset (mod_of_memWrite hw) hk] at h0
  rw [← platform_of_memWrite hw] at hm
  rw [memRead_of_readBytes (Nat.mod_one _) hm (readBytes_one h0), joinBytes_one]

theorem memRead_half_of_word_big (hw : memWrite s a 4 v = .ok t) (he : s.platform.endian = .big) (hk : k = 0 ∨ k = 2)
    (hm : Platform.mapped s.platform (a + BitVec.ofNat 32 k) 2 kind = true) :
    memRead t (a + BitVec.ofNat 32 k) 2 kind = .ok (v.extractLsb' (16 - 8 * k) 16) := by
  have ha := mod_of_memWrite hw
  have hadd := toNat_add_offset ha (k := k) (by omega)
  have h0 := read_of_memWrite_big hw he (k := k) (by omega)
  have h1 := read_of_memWrite_big hw he (k := k + 1) (by omega)
  rw [← Nat.add_assoc, ← hadd, show 8 * (4 - (k + 1) - 1) = 16 - 8 * k by omega] at h1
  rw [← hadd, show 8 * (4 - k - 1) = 16 - 8 * k + 8 by omega] at h0
  rw [← platform_of_memWrite hw] at hm he
  rw [memRead_of_readBytes (by omega) hm (readBytes_two h0 h1), he, joinBytes_big_two, extract_byte_append_byte]

theorem memRead_half_of_word_little (hw : memWrite s a 4 v = .ok t) (he : s.platform.endian = .little)
    (hk : k = 0 ∨ k = 2) (hm : Platform.mapped s.platform (a + BitVec.ofNat 32 k) 2 kind = true) :
    memRead t (a + BitVec.ofNat 32 k) 2 kind = .ok (v.extractLsb' (8 * k) 16) := by
  have ha := mod_of_memWrite hw
  have hadd := toNat_add_offset ha (k := k) (by omega)
  have h0 := read_of_memWrite_little hw he (k := k) (by omega)
  have h1 := read_of_memWrite_little hw he (k := k + 1) (by omega)
  rw [← Nat.add_assoc, ← hadd] at h1
  rw [← hadd] at h0
  rw [← platform_of_memWrite hw] at hm he
  rw [memRead_of_readBytes (by omega) hm (readBytes_two h0 h1), he, joinBytes_little_two, Nat.mul_add,
    extract_byte_append_byte]

end

/-- Settles O16: the bytes at offset `k` for a byte read, those at the offsets 0 and 2 for a halfword read. -/
theorem narrowReadsAfterWordWrite : Obligations.NarrowReadsAfterWordWrite := by
  intro s t a v hw
  refine ⟨fun k hk hm => ⟨fun he => memRead_byte_of_word_big hw he hk hm,
    fun he => memRead_byte_of_word_little hw he hk hm⟩, fun hm => ?_, fun hm =>
    ⟨fun he => memRead_half_of_word_big hw he (.inr rfl) hm, fun he => memRead_half_of_word_little hw he (.inr rfl) hm⟩⟩
  rw [← BitVec.add_zero a] at hm ⊢
  exact ⟨fun he => memRead_half_of_word_big hw he (.inl rfl) hm,
    fun he => memRead_half_of_word_little hw he (.inl rfl) hm⟩

/-! ### The step (R25) -/

theorem step_of_fetch_eq_error {s : State} {e : Fault} (h : fetch s = .error e) : step s = .fault e := by
  rw [step, h]
  exact raise_of_memRead_error h

theorem step_of_fetch_eq_ok {s : State} {w : Word} {i : Instr} (h : fetch s = .ok w) (hi : decode w = .ok i) :
    step s = exec i s := by
  rw [step, h]
  simp only [hi]

/-- Settles O8: the fetch reads the word the four bytes join to. -/
theorem stepRunsTheDecodedInstruction : Obligations.StepRunsTheDecodedInstruction :=
  fun _ _ _ hpc hm hb hi => step_of_fetch_eq_ok (memRead_of_readBytes hpc hm hb) hi

/-- Settles O9: a step whose fetch fails ends the run with the fetch's exception. -/
theorem fetchRaisesInOrder : Obligations.FetchRaisesInOrder :=
  fun _ => ⟨fun h => step_of_fetch_eq_error (memRead_of_misaligned h),
    fun h hm => step_of_fetch_eq_error (memRead_of_unmapped h hm),
    fun h hm hb => step_of_fetch_eq_error (memRead_of_unwritten h hm hb)⟩

/-- Settles O10: the bytes placed are the bytes fetched, and they join to the word they were split from. -/
theorem placedWordIsFetched : Obligations.PlacedWordIsFetched := by
  intro s w hpc hm
  refine ⟨?_, rfl⟩
  have hw : BitVec.ofNat 32 (w.toNat % 2 ^ 32) = w := by
    rw [Nat.mod_eq_of_lt w.isLt, BitVec.ofNat_toNat, BitVec.setWidth_eq]
  rw [State.withFetchWord, hw]
  exact memRead_of_mem_eq_writeBytes (by decide) rfl hpc hm

/-! ### Stores and what follows them -/

/-- A store word that goes on has written its register at its effective address, and has changed nothing else but `pc`. -/
theorem exec_sw_eq_next {s t : State} {rt rs : RegNo} {imm : BitVec 16} (h : exec (.sw rt imm rs) s = .next t) :
    ∃ u, memWrite s (effectiveAddress s rs imm) 4 (s.getReg rt) = .ok u ∧ t = u.advance :=
  (store_eq_next_iff s t _ 4 _).1 h

/-- Settles O11: the fetch reads what the store wrote. -/
theorem storedWordIsFetched : Obligations.StoredWordIsFetched := by
  intro s t rt rs imm h hm
  obtain ⟨u, hu, rfl⟩ := exec_sw_eq_next h
  exact memRead_of_memWrite (by decide) hu rfl rfl hm

/-! ### Loads -/

theorem load_of_memRead_eq_ok {s : State} {ea : Word} {n : Nat} {v : BitVec (8 * n)} (h : memRead s ea n .load = .ok v)
    (rt : RegNo) (ext : BitVec (8 * n) → Word) : load s rt ea n ext = finish s rt (ext v) := by
  rw [load, h]

theorem load_of_memRead_eq_error {s : State} {ea : Word} {n : Nat} {e : Fault} (h : memRead s ea n .load = .error e)
    (rt : RegNo) (ext : BitVec (8 * n) → Word) : load s rt ea n ext = .fault e := by
  rw [load, h]
  exact raise_of_memRead_error h

theorem store_of_memWrite_eq_ok {s t : State} {ea : Word} {n : Nat} {v : BitVec (8 * n)} (h : memWrite s ea n v = .ok t) :
    store s ea n v = .next t.advance := by
  rw [store, h]

theorem store_of_memWrite_eq_error {s : State} {ea : Word} {n : Nat} {v : BitVec (8 * n)} {e : Fault}
    (h : memWrite s ea n v = .error e) : store s ea n v = .fault e := by
  rw [store, h]
  exact raise_of_memWrite_error h

/-- Settles O55: the load reads at the address the store wrote, since the base register still holds the base. -/
theorem wordLoadReturnsTheWordStored : Obligations.WordLoadReturnsTheWordStored := by
  intro s t rt rs rd imm h hm hrd
  obtain ⟨u, hu, rfl⟩ := exec_sw_eq_next h
  have hbase : effectiveAddress u.advance rs imm = effectiveAddress s rs imm := by
    rw [eq_withMem_of_memWrite hu]; rfl
  have hread : memRead u.advance (effectiveAddress u.advance rs imm) 4 .load = .ok (s.getReg rt) := by
    rw [hbase]; exact memRead_of_memWrite (by decide) hu rfl rfl hm
  obtain ⟨w, hw, hval⟩ := completes_with_value (i := .lw rd imm rs) (load_of_memRead_eq_ok hread rd id) rfl
  exact ⟨w, hw, hval hrd⟩

/-- Settles O49: the one byte read is the value, and extending keeps its signed or unsigned value. -/
theorem byteLoadsExtend : Obligations.ByteLoadsExtend := by
  intro s rt rs imm b hm hb
  have hread := memRead_of_readBytes (kind := .load) (Nat.mod_one _) hm (readBytes_one hb)
  rw [joinBytes_one] at hread
  exact ⟨completes_of_finish (i := .lb rt imm rs) (P := fun x => x.toInt = b.toInt) (load_of_memRead_eq_ok hread rt _)
      (BitVec.toInt_signExtend_of_le (by decide)),
    completes_of_finish (i := .lbu rt imm rs) (P := fun x => x.toNat = b.toNat) (load_of_memRead_eq_ok hread rt _)
      (BitVec.toNat_setWidth_of_le (by decide))⟩

/-- `lh` and `lhu` at an aligned, mapped halfword complete with its signed and its unsigned value. -/
theorem execLh_execLhu_complete {s : State} {rs : RegNo} {imm : BitVec 16} {v : BitVec 16} (rt : RegNo)
    (h : memRead s (effectiveAddress s rs imm) 2 .load = .ok v) :
    (∃ t, exec (.lh rt imm rs) s = .next t ∧ (rt ≠ 0 → (t.getReg rt).toInt = v.toInt)) ∧
      (∃ t, exec (.lhu rt imm rs) s = .next t ∧ (rt ≠ 0 → (t.getReg rt).toNat = v.toNat)) :=
  ⟨completes_of_finish (i := .lh rt imm rs) (P := fun x => x.toInt = v.toInt) (load_of_memRead_eq_ok h rt _)
      (BitVec.toInt_signExtend_of_le (by decide)),
    completes_of_finish (i := .lhu rt imm rs) (P := fun x => x.toNat = v.toNat) (load_of_memRead_eq_ok h rt _)
      (BitVec.toNat_setWidth_of_le (by decide))⟩

/-- Settles O50: the two bytes read join by the byte order. -/
theorem halfwordLoadsExtend : Obligations.HalfwordLoadsExtend := by
  intro s rt rs imm b0 b1 ha hm h0 h1
  have hread := memRead_of_readBytes (kind := .load) ha hm (readBytes_two h0 h1)
  cases he : s.platform.endian with
  | big => exact execLh_execLhu_complete rt (by rw [effectiveAddress, signedImm, hread, he, joinBytes_big_two])
  | little => exact execLh_execLhu_complete rt (by rw [effectiveAddress, signedImm, hread, he, joinBytes_little_two])

/-- Settles O51: the four bytes read join by the byte order. -/
theorem wordLoadReadsFourBytes : Obligations.WordLoadReadsFourBytes := by
  intro s rt rs imm b0 b1 b2 b3 ha hm h0 h1 h2 h3
  have hread := memRead_of_readBytes (kind := .load) ha hm (readBytes_four h0 h1 h2 h3)
  refine completes_with_value (i := .lw rt imm rs) (load_of_memRead_eq_ok hread rt id) ?_
  cases he : s.platform.endian with
  | big => exact joinBytes_big_four b0 b1 b2 b3
  | little => exact joinBytes_little_four b0 b1 b2 b3

/-- Settles O52: a load ends with the exception of its read. -/
theorem loadsRaiseAddressErrorThenAccessFault : Obligations.LoadsRaiseAddressErrorThenAccessFault := by
  rintro s rt rs imm ea rfl
  have raises : ∀ {n : Nat} {e : Fault}, memRead s (effectiveAddress s rs imm) n .load = .error e →
      ∀ ext, load s rt (effectiveAddress s rs imm) n ext = .fault e := fun h ext => load_of_memRead_eq_error h rt ext
  refine ⟨fun h => ?_, fun h => ?_, fun hm => ?_, fun h hm => ?_, fun h hm => ?_⟩
  · exact ⟨raises (memRead_of_misaligned h) _, raises (memRead_of_misaligned h) _⟩
  · exact raises (memRead_of_misaligned h) _
  · exact ⟨raises (memRead_of_unmapped (Nat.mod_one _) hm) _, raises (memRead_of_unmapped (Nat.mod_one _) hm) _⟩
  · exact ⟨raises (memRead_of_unmapped h hm) _, raises (memRead_of_unmapped h hm) _⟩
  · exact raises (memRead_of_unmapped h hm) _

/-- A store at an aligned, mapped address completes, and every byte it stores reads as its part of the value. -/
theorem store_completes {s : State} {ea : Word} {n : Nat} (v : BitVec (8 * n)) (ha : ea.toNat % n = 0)
    (hm : Platform.mapped s.platform ea n .store = true) :
    ∃ t, store s ea n v = .next t ∧
      (s.platform.endian = .big → ∀ k < n,
        Memory.read t.mem (ea.toNat + k) = some (v.extractLsb' (8 * (n - k - 1)) 8)) ∧
      (s.platform.endian = .little → ∀ k < n, Memory.read t.mem (ea.toNat + k) = some (v.extractLsb' (8 * k) 8)) := by
  have hw := memWrite_of_mapped ha hm (v := v)
  exact ⟨_, store_of_memWrite_eq_ok hw, fun he k hk => read_of_memWrite_big hw he hk,
    fun he k hk => read_of_memWrite_little hw he hk⟩

/-- A byte of the low half of a word is that byte of the word. -/
theorem extract_byte_of_lowHalf (x : Word) {k : Nat} (hk : k ≤ 8) : (lowHalf x).extractLsb' k 8 = x.extractLsb' k 8 := by
  apply BitVec.eq_of_getLsbD_eq
  intro j hj
  have : k + j < 16 := by omega
  simp [lowHalf, hj, this]

/-- Settles O53: the bytes stored are those of the low part of the register. -/
theorem storesPutTheLowBytes : Obligations.StoresPutTheLowBytes := by
  rintro s rt rs imm ea rfl
  refine ⟨fun hm => ?_, fun ha hm => ?_, fun ha hm => ?_⟩
  · obtain ⟨t, ht, hbig, hlittle⟩ := store_completes (lowByte (s.getReg rt)) (Nat.mod_one _) hm
    refine ⟨t, ht, ?_⟩
    cases he : s.platform.endian with
    | big => simpa [lowByte] using hbig he 0 Nat.one_pos
    | little => simpa [lowByte] using hlittle he 0 Nat.one_pos
  · obtain ⟨t, ht, hbig, hlittle⟩ := store_completes (lowHalf (s.getReg rt)) ha hm
    refine ⟨t, ht, fun k hk => ?_⟩
    cases he : s.platform.endian with
    | big => rw [hbig he k hk, extract_byte_of_lowHalf _ (by omega), Nat.sub_right_comm]
    | little => rw [hlittle he k hk, extract_byte_of_lowHalf _ (by omega)]
  · obtain ⟨t, ht, hbig, hlittle⟩ := store_completes (s.getReg rt) ha hm
    refine ⟨t, ht, fun k hk => ?_⟩
    cases he : s.platform.endian with
    | big => rw [hbig he k hk, Nat.sub_right_comm]
    | little => exact hlittle he k hk

/-- Settles O54: a store ends with the exception of its write. -/
theorem storesRaiseAddressErrorThenAccessFault : Obligations.StoresRaiseAddressErrorThenAccessFault := by
  rintro s rt rs imm ea rfl
  exact ⟨fun h => store_of_memWrite_eq_error (memWrite_of_misaligned h),
    fun h => store_of_memWrite_eq_error (memWrite_of_misaligned h),
    fun hm => store_of_memWrite_eq_error (memWrite_of_unmapped (Nat.mod_one _) hm),
    fun h hm => store_of_memWrite_eq_error (memWrite_of_unmapped h hm),
    fun h hm => store_of_memWrite_eq_error (memWrite_of_unmapped h hm)⟩

end Sys2Proof.Machine
end

/-! Proofs for arithmetic: O29 to O31 and O35 to O40. -/

section
namespace Sys2Proof.Machine

/-! ### Sums and differences (R100 to R103, R119, R120, R124) -/

theorem add_eq_ofInt (a b : Word) : a + b = BitVec.ofInt 32 (a.toInt + b.toInt) := by
  rw [BitVec.ofInt_add, BitVec.ofInt_toInt, BitVec.ofInt_toInt]

theorem sub_eq_ofInt (a b : Word) : a - b = BitVec.ofInt 32 (a.toInt - b.toInt) := by
  rw [Int.sub_eq_add_neg, BitVec.ofInt_add, BitVec.ofInt_neg, BitVec.ofInt_toInt, BitVec.ofInt_toInt, BitVec.sub_eq_add_neg]

/-- A sign-extended immediate keeps its signed value (R67). -/
@[simp] theorem toInt_signedImm (imm : BitVec 16) : (signedImm imm).toInt = imm.toInt :=
  BitVec.toInt_signExtend_of_le (by decide)

theorem add_signedImm_eq_ofInt (a : Word) (imm : BitVec 16) :
    a + signedImm imm = BitVec.ofInt 32 (a.toInt + imm.toInt) := by
  rw [add_eq_ofInt, toInt_signedImm]

/-- The sign test of R124 for sums is the library's test of the integer sum. -/
theorem addOverflows_iff (a b : Word) :
    addOverflows a b = true ↔ a.toInt + b.toInt < -2147483648 ∨ 2147483647 < a.toInt + b.toInt := by
  have h : addOverflows a b = BitVec.saddOverflow a b := (BitVec.saddOverflow_eq a b).symm
  rw [h, BitVec.saddOverflow, Bool.or_eq_true, decide_eq_true_eq, decide_eq_true_eq]
  omega

/-- The sign test of R124 for differences is the library's test of the integer difference. -/
theorem subOverflows_iff (a b : Word) :
    subOverflows a b = true ↔ a.toInt - b.toInt < -2147483648 ∨ 2147483647 < a.toInt - b.toInt := by
  have h : subOverflows a b = BitVec.ssubOverflow a b := by
    rw [BitVec.ssubOverflow_eq, subOverflows]
    cases a.msb <;> cases b.msb <;> simp
  rw [h, BitVec.ssubOverflow, Bool.or_eq_true, decide_eq_true_eq, decide_eq_true_eq]
  omega

theorem finishUnlessOverflow_eq_fault_iff (s : State) (o : Bool) (r : RegNo) (v : Word) :
    finishUnlessOverflow s o r v = .fault .integerOverflow ↔ s.platform.ovf = .fault ∧ o = true := by
  obtain ⟨h, hovf⟩ | ⟨h, hovf⟩ := finishUnlessOverflow_cases s o r v
  · exact iff_of_true h hovf
  · exact iff_of_false (by rw [h]; nofun) hovf

/-- An instruction that checks for overflow completes with its value under the policy `wrap`, and in range. -/
theorem completes_unless_overflow {i : Instr} {s : State} {o : Bool} {r : RegNo} {v w : Word}
    (hi : exec i s = finishUnlessOverflow s o r v) (ho : s.platform.ovf = .wrap ∨ ¬ o = true) (hv : v = w) :
    ∃ t, exec i s = .next t ∧ (r ≠ 0 → t.getReg r = w) := by
  obtain ⟨-, hovf, ho'⟩ | ⟨h, -⟩ := finishUnlessOverflow_cases s o r v
  · simp [hovf, ho'] at ho
  · exact completes_with_value (hi.trans h) hv

/-- Settles O29: the value written is the sum or difference of the words. -/
theorem unsignedAddSubtractWrap : Obligations.UnsignedAddSubtractWrap := fun _ _ _ _ _ =>
  ⟨completes_of_finish (P := fun x => x.toNat = _) rfl (BitVec.toNat_add _ _),
    completes_with_value rfl (add_signedImm_eq_ofInt _ _), completes_with_value rfl (sub_eq_ofInt _ _)⟩

/-- Settles O30: in range the sign test of R124 fails. -/
theorem signedAddSubtractComplete : Obligations.SignedAddSubtractComplete := by
  intro s rd rs rt imm
  refine ⟨fun h => completes_unless_overflow rfl (h.imp_right fun h => ?_) (add_eq_ofInt _ _),
    fun h => completes_unless_overflow rfl (h.imp_right fun h => ?_) (add_signedImm_eq_ofInt _ _),
    fun h => completes_unless_overflow rfl (h.imp_right fun h => ?_) (sub_eq_ofInt _ _)⟩
  · rw [addOverflows_iff]; omega
  · rw [addOverflows_iff, toInt_signedImm]; omega
  · rw [subOverflows_iff]; omega

/-- Settles O31: the instruction raises exactly when the sign test of R124 holds. -/
theorem signedOverflowRaisesUnderFaultPolicy : Obligations.SignedOverflowRaisesUnderFaultPolicy := by
  intro s rd rs rt imm hovf
  have raises_iff : ∀ o r v, finishUnlessOverflow s o r v = .fault .integerOverflow ↔ o = true := fun o r v => by
    rw [finishUnlessOverflow_eq_fault_iff, hovf]; exact and_iff_right rfl
  refine ⟨(raises_iff _ _ _).trans (addOverflows_iff _ _), ?_, (raises_iff _ _ _).trans (subOverflows_iff _ _)⟩
  rw [← toInt_signedImm imm]
  exact (raises_iff _ _ _).trans (addOverflows_iff _ _)

/-! ### Variable shifts (R114, R116, R118) -/

/-- The low five bits of a register are its value modulo 32 (D12). -/
theorem shiftCount_eq (x : Word) : shiftCount x = x.toNat % 32 := by
  rw [shiftCount, extract_toNat, pow_zero, Nat.div_one]; rfl

/-- Settles O35: both instructions finish with the same shift. -/
theorem variableShiftsUseLowFiveBits : Obligations.VariableShiftsUseLowFiveBits := by
  intro s rd rt rs
  rw [← shiftCount_eq]
  exact ⟨⟨_, rfl, rfl⟩, ⟨_, rfl, rfl⟩, ⟨_, rfl, rfl⟩⟩

/-! ### Multiplication (R108, R109) -/

theorem upperWord_append_lowerWord (p : BitVec 64) : (upperWord p ++ lowerWord p : BitVec 64) = p :=
  BitVec.extractLsb'_append_extractLsb' (w := 32) (len := 32)

/-- The signed product of two words fits in 64 bits. -/
theorem toInt_mul_signExtend (a b : Word) : (a.signExtend 64 * b.signExtend 64).toInt = a.toInt * b.toInt := by
  have hle : a.toInt * b.toInt ≤ 2 ^ 62 := BitVec.toInt_mul_toInt_le
  have hge : -2 ^ 62 ≤ a.toInt * b.toInt := BitVec.le_toInt_mul_toInt
  rw [BitVec.toInt_mul, BitVec.toInt_signExtend_of_le (by decide), BitVec.toInt_signExtend_of_le (by decide)]
  exact Int.bmod_eq_of_le (by omega) (by omega)

/-- The unsigned product of two words fits in 64 bits. -/
theorem toNat_mul_setWidth (a b : Word) : (a.setWidth 64 * b.setWidth 64).toNat = a.toNat * b.toNat := by
  rw [BitVec.toNat_mul, BitVec.toNat_setWidth_of_le (by decide), BitVec.toNat_setWidth_of_le (by decide)]
  have hlt : a.toNat * b.toNat < 2 ^ 32 * 2 ^ 32 := Nat.mul_lt_mul_of_lt_of_lt a.isLt b.isLt
  exact Nat.mod_eq_of_lt (by omega)

/-- The low word of a product depends on the low words of its factors alone. -/
theorem lowerWord_mul (p q : BitVec 64) : lowerWord (p * q) = lowerWord p * lowerWord q :=
  BitVec.extractLsb'_mul (by decide)

theorem lowerWord_signExtend (a : Word) : lowerWord (a.signExtend 64) = a := by
  apply BitVec.eq_of_getLsbD_eq
  intro k hk
  simp [lowerWord, BitVec.getLsbD_signExtend, hk]; omega

theorem lowerWord_setWidth (a : Word) : lowerWord (a.setWidth 64) = a := by
  rw [lowerWord, BitVec.extractLsb'_setWidth_of_le (by decide)]
  exact BitVec.extractLsb'_eq_self

/-- Settles O36: `hi:lo` is the product, which is exact, and its low word is the product of the words. -/
theorem multiplyLeavesTheExactProduct : Obligations.MultiplyLeavesTheExactProduct := by
  intro s rs rt
  obtain ⟨t, ht, hthi, htlo⟩ := completes_of_finishHiLo (i := .mult rs rt) (s := s) rfl
  obtain ⟨u, hu, huhi, hulo⟩ := completes_of_finishHiLo (i := .multu rs rt) (s := s) rfl
  refine ⟨t, u, ht, hu, ?_, ?_, ?_⟩
  · rw [hthi, htlo, upperWord_append_lowerWord, toInt_mul_signExtend]
  · rw [huhi, hulo, upperWord_append_lowerWord, toNat_mul_setWidth]
  · rw [htlo, hulo, lowerWord_mul, lowerWord_mul, lowerWord_signExtend, lowerWord_signExtend, lowerWord_setWidth,
      lowerWord_setWidth]

/-! ### Division (R106, R107) -/

section
variable {s : State} {rs rt : RegNo}

theorem exec_div_of_ne_zero (h : s.getReg rt ≠ 0#32) : exec (.div rs rt) s = finishHiLo s
    (remainder (s.getReg rs).toInt (s.getReg rt).toInt) (quotient (s.getReg rs).toInt (s.getReg rt).toInt) :=
  if_neg fun h0 => h (BitVec.eq_of_toInt_eq h0)

theorem exec_divu_of_ne_zero (h : s.getReg rt ≠ 0#32) :
    exec (.divu rs rt) s = finishHiLo s (s.getReg rs % s.getReg rt) (s.getReg rs / s.getReg rt) := by
  rw [BitVec.umod_def, BitVec.udiv_def]
  exact if_neg fun h0 => h (BitVec.eq_of_toNat_eq h0)

theorem exec_div_of_eq_zero (h : s.getReg rt = 0#32) : exec (.div rs rt) s = finishDivByZero s :=
  if_pos (by rw [h]; rfl)

theorem exec_divu_of_eq_zero (h : s.getReg rt = 0#32) : exec (.divu rs rt) s = finishDivByZero s :=
  if_pos (by rw [h]; rfl)

end

/-- The truncated quotient is the library's signed division. -/
theorem quotient_eq_sdiv (a b : Word) : quotient a.toInt b.toInt = a.sdiv b := by
  apply BitVec.eq_of_toInt_eq
  rw [quotient, BitVec.toInt_ofInt, BitVec.toInt_sdiv]

/-- The remainder of the truncated quotient is the library's signed remainder. -/
theorem remainder_eq_srem (a b : Word) : remainder a.toInt b.toInt = a.srem b := by
  rw [remainder, Int.mul_comm, ← Int.tmod_def, ← BitVec.toInt_srem, BitVec.ofInt_toInt]

/-- Settles O37: only the overflow case has a quotient outside the signed range. -/
theorem signedDivideTruncates : Obligations.SignedDivideTruncates := by
  intro s rs rt h
  obtain ⟨t, ht, hhi, hlo⟩ := completes_of_finishHiLo (exec_div_of_ne_zero (rs := rs) h)
  refine ⟨t, ht, ?_⟩
  rw [hhi, hlo, quotient_eq_sdiv, remainder_eq_srem]
  split_ifs with hov
  · obtain ⟨hx, hy⟩ := hov
    rw [hx, hy]; decide
  · exact ⟨BitVec.toInt_sdiv_of_ne_or_ne _ _ (not_and_or.1 hov), BitVec.toInt_srem _ _⟩

/-- Settles O38: the division of words is that of their unsigned values. -/
theorem unsignedDivideFloors : Obligations.UnsignedDivideFloors := by
  intro s rs rt h
  obtain ⟨t, ht, hhi, hlo⟩ := completes_of_finishHiLo (exec_divu_of_ne_zero (rs := rs) h)
  exact ⟨t, ht, hlo ▸ BitVec.toNat_udiv, hhi ▸ BitVec.toNat_umod⟩

theorem quotient_mul_add_remainder (a b : Word) :
    quotient a.toInt b.toInt * b + remainder a.toInt b.toInt = a := by
  have hsum : a.toInt.tdiv b.toInt * b.toInt + (a.toInt - a.toInt.tdiv b.toInt * b.toInt) = a.toInt := by omega
  calc quotient a.toInt b.toInt * b + remainder a.toInt b.toInt
    _ = quotient a.toInt b.toInt * BitVec.ofInt 32 b.toInt + remainder a.toInt b.toInt := by rw [BitVec.ofInt_toInt]
    _ = BitVec.ofInt 32 a.toInt := by rw [quotient, remainder, ← BitVec.ofInt_mul, ← BitVec.ofInt_add, hsum]
    _ = a := BitVec.ofInt_toInt

theorem udiv_mul_add_umod (a b : Word) : a / b * b + a % b = a := by
  apply BitVec.eq_of_toNat_eq
  rw [BitVec.toNat_add, BitVec.toNat_mul, BitVec.toNat_udiv, BitVec.toNat_umod, Nat.mod_add_mod, Nat.mul_comm,
    Nat.div_add_mod, Nat.mod_eq_of_lt a.isLt]

/-- Settles O39: the law holds of both quotients, and modulo 2^32 in the overflow case too. -/
theorem dividendIsQuotientTimesDivisorPlusRemainder : Obligations.DividendIsQuotientTimesDivisorPlusRemainder := by
  rintro s t rs rt h (ht | ht)
  · cases (exec_div_of_ne_zero h).symm.trans ht
    exact (quotient_mul_add_remainder _ _).symm
  · cases (exec_divu_of_ne_zero h).symm.trans ht
    exact (udiv_mul_add_umod _ _).symm

/-- Settles O40: both divisions by zero are the one operation that takes two draws. -/
theorem divisionByZeroTakesTwoFreshDraws : Obligations.DivisionByZeroTakesTwoFreshDraws :=
  fun _ _ _ h => ⟨_, exec_div_of_eq_zero h, exec_divu_of_eq_zero h, rfl, rfl, rfl, fun _ => rfl, rfl, rfl⟩

end Sys2Proof.Machine
end

/-! Proofs for constants, comparisons, branches, `jalr`, traps and runs: O42 to O44, O48 and O58 to O60. -/

section
namespace Sys2Proof.Machine

/-! ### Constants and comparisons -/

/-- Settles O42: the second of the two writes keeps the half the first one wrote. -/
theorem lhiAndLloBuildAnyConstant : Obligations.LhiAndLloBuildAnyConstant := by
  intro s rt K hrt
  constructor
  · obtain ⟨t, ht, -, hhalves⟩ := completes_with_halves (i := .lhi rt (highHalf K)) (s := s) rfl
    obtain ⟨u, hu, hval⟩ := completes_with_value (i := .llo rt (lowHalf K)) (s := t) rfl rfl
    refine ⟨t, u, ht, hu, ?_⟩
    obtain ⟨hhigh, -⟩ := hhalves hrt
    rw [hval hrt, hhigh, highHalf_append_lowHalf]
  · obtain ⟨t, ht, -, hhalves⟩ := completes_with_halves (i := .llo rt (lowHalf K)) (s := s) rfl
    obtain ⟨u, hu, hval⟩ := completes_with_value (i := .lhi rt (highHalf K)) (s := t) rfl rfl
    refine ⟨t, u, ht, hu, ?_⟩
    obtain ⟨-, hlow⟩ := hhalves hrt
    rw [hval hrt, hlow, highHalf_append_lowHalf]

theorem toNat_truthValue (p : Prop) [Decidable p] : (truthValue (decide p)).toNat = if p then 1 else 0 := by
  by_cases h : p <;> simp [truthValue, h]

/-- A sign-extended immediate as an unsigned number: its negative half lies at the top of the word. -/
theorem toNat_signedImm (imm : BitVec 16) :
    (signedImm imm).toNat = if imm.toNat < 32768 then imm.toNat else 4294901760 + imm.toNat := by
  have hmsb := BitVec.msb_eq_decide imm
  have := imm.isLt
  rw [signedImm, BitVec.toNat_signExtend, BitVec.toNat_setWidth_of_le (by decide), hmsb]
  split_ifs with h1 h2 <;> simp only [decide_eq_true_eq] at h1 <;> omega

/-- A comparison completes with 1 or 0 in its destination. -/
theorem completes_with_truthValue {i : Instr} {s : State} {r : RegNo} {p : Prop} [Decidable p]
    (hi : exec i s = finish s r (truthValue (decide p))) :
    ∃ t, exec i s = .next t ∧ (r ≠ 0 → (t.getReg r).toNat = if p then 1 else 0) :=
  completes_of_finish (P := fun x => x.toNat = if p then 1 else 0) hi (toNat_truthValue p)

/-- Settles O43: each comparison finishes with a truth value, of extended operands. -/
theorem comparisonsWriteOneOrZero : Obligations.ComparisonsWriteOneOrZero := by
  intro s rd rs rt imm
  rw [← toInt_signedImm, ← toNat_signedImm]
  exact ⟨completes_with_truthValue rfl, completes_with_truthValue rfl, completes_with_truthValue rfl,
    completes_with_truthValue rfl⟩

/-! ### Branches and `jalr` -/

/-- A branch completes with the target or the next instruction in `pc`, and changes nothing else. -/
theorem completes_of_branchIf {i : Instr} {s : State} {imm : BitVec 16} {c : Bool} {p : Prop} [Decidable p]
    (hi : exec i s = branchIf s c imm) (hc : c = true ↔ p) :
    ∃ t, exec i s = .next t ∧ { t with pc := s.pc } = s ∧
      t.pc = if p then branchTarget s.pc imm else s.pc + 4#32 := by
  obtain ⟨t, ht, hpc, hframe⟩ := completes_of_setPc (hi.trans (branchIf_eq s c imm))
  refine ⟨t, ht, hframe, hpc.trans ?_⟩
  simp only [hc]

theorem toInt_pos_iff (x : Word) : 0 < x.toInt ↔ x.msb = false ∧ x ≠ 0#32 := by
  have hzero : x.toInt ≠ 0 ↔ x ≠ 0#32 := BitVec.toInt_ne (y := 0#32)
  rw [BitVec.msb_eq_toInt, ← hzero, decide_eq_false_iff_not]
  omega

theorem toInt_nonpos_iff (x : Word) : x.toInt ≤ 0 ↔ x.msb = true ∨ x = 0#32 := by
  rw [← not_lt, toInt_pos_iff, not_and_or, not_not, Bool.not_eq_false]

/-- Settles O44: the four conditions, said by sign bit and equality. -/
theorem branchesGoToTargetOrNext : Obligations.BranchesGoToTargetOrNext := by
  intro s rs rt imm
  refine ⟨completes_of_branchIf rfl decide_eq_true_iff, ?_,
    completes_of_branchIf rfl (decide_eq_true_iff.trans (toInt_pos_iff _)),
    completes_of_branchIf rfl (decide_eq_true_iff.trans (toInt_nonpos_iff _))⟩
  obtain ⟨t, ht, hframe, hpc⟩ := completes_of_branchIf (i := .bne rs rt imm) (s := s) rfl decide_eq_true_iff
  exact ⟨t, ht, hframe, hpc.trans (ite_not _ _ _)⟩

/-- Settles O48: the register is read after the link is written, so register 31 reads as the link. -/
theorem jumpAndLinkRegisterLinksFirst : Obligations.JumpAndLinkRegisterLinksFirst := by
  intro s rs
  refine ⟨_, rfl, ?_, ?_⟩
  · exact getReg_setReg_same s linkReg _ (by decide)
  · rw [setPc_pc, getReg_setReg]
    simp [linkReg, linkAddress]

/-! ### Traps (R190, R191) -/

theorem covers_iff (rule : TrapRule) (code : Nat) (a : Arch) : rule.covers code a = true ↔
    (rule.code = none ∨ rule.code = some code) ∧ (rule.state = none ∨ rule.state = some a) := by
  rw [TrapRule.covers, Bool.and_eq_true]
  cases rule.code <;> cases rule.state <;> simp

/-- The answers the model lists are those `TRAP_ENV` relates the code and the state to. -/
theorem mem_answersTo_iff_mayAnswer (env : List TrapRule) (code : Nat) (a : Arch) (o : Option Arch) :
    o ∈ answersTo env code a ↔ mayAnswer env code a o := by
  rw [mem_answersTo, mayAnswer]
  refine exists_congr fun rule => and_congr_right fun _ => ?_
  rw [covers_iff, and_assoc]
  refine and_congr_right fun _ => and_congr_right fun _ => ?_
  cases rule.answer <;> exact eq_comm

section
variable {s : State} {code : Nat}

theorem exec_trap_of_resume {a : Arch} (h : chooseAnswer s.traps (answersTo s.trapEnv code s.toArch) = some a) :
    exec (.trap code) s = .next (resume s a) :=
  (raise_eq_next_iff _ _ _).2 ⟨code, a, rfl, h, rfl⟩

theorem exec_trap_of_stop (h : chooseAnswer s.traps (answersTo s.trapEnv code s.toArch) = none) :
    exec (.trap code) s = .fault (.trap code) := by
  show raise (.trap code) s = _
  rw [raise, h]

/-- The answer chosen is one the environment allows, or it is `stop` where the environment allows nothing. -/
theorem mayAnswer_chooseAnswer (s : State) (code : Nat) :
    mayAnswer s.trapEnv code s.toArch (chooseAnswer s.traps (answersTo s.trapEnv code s.toArch)) ∨
      (chooseAnswer s.traps (answersTo s.trapEnv code s.toArch) = none ∧ ∀ o, ¬ mayAnswer s.trapEnv code s.toArch o) := by
  obtain ⟨hnil, hnone⟩ | hmem := chooseAnswer_mem s.traps (answersTo s.trapEnv code s.toArch)
  · refine .inr ⟨hnone, fun o ho => ?_⟩
    rw [← mem_answersTo_iff_mayAnswer, hnil] at ho
    exact List.not_mem_nil ho
  · exact .inl ((mem_answersTo_iff_mayAnswer _ _ _ _).1 hmem)

end

/-- Settles O58: the answer chosen is allowed, so it is a resumption where `stop` is not allowed. -/
theorem resumedTrapContinuesWithTheEnvironmentsState : Obligations.ResumedTrapContinuesWithTheEnvironmentsState := by
  intro s code
  have hallowed := mayAnswer_chooseAnswer s code
  constructor
  · rintro ⟨o, ho⟩ hstop
    cases hchoice : chooseAnswer s.traps (answersTo s.trapEnv code s.toArch) with
    | some a => exact ⟨_, exec_trap_of_resume hchoice⟩
    | none =>
      rw [hchoice] at hallowed
      obtain h | ⟨-, h⟩ := hallowed
      · exact absurd h hstop
      · exact absurd ho (h o)
  · intro t ht
    obtain ⟨_, a, hcode, hchoice, rfl⟩ := (raise_eq_next_iff (.trap code) s t).1 ht
    cases hcode
    rw [hchoice] at hallowed
    obtain h | ⟨h, -⟩ := hallowed
    · exact ⟨h, rfl, rfl, rfl, rfl⟩
    · cases h

/-- Settles O59: the answer chosen is `stop` where no resumption is allowed, and a trap ends the run on that answer alone. -/
theorem unresumedTrapEndsTheRun : Obligations.UnresumedTrapEndsTheRun := by
  intro s code
  have hallowed := mayAnswer_chooseAnswer s code
  cases hchoice : chooseAnswer s.traps (answersTo s.trapEnv code s.toArch) with
  | some a =>
    rw [hchoice] at hallowed
    obtain h | ⟨h, -⟩ := hallowed
    · refine ⟨fun hnone => absurd h (hnone a), fun e he => ?_⟩
      rw [exec_trap_of_resume hchoice] at he
      cases he
    · cases h
  | none =>
    refine ⟨fun _ => exec_trap_of_stop hchoice, fun e he => ?_⟩
    rw [exec_trap_of_stop hchoice] at he
    rw [hchoice] at hallowed
    cases he
    exact ⟨rfl, hallowed.imp_right And.right⟩

/-! ### Runs (R216) -/

/-- Settles O60, by induction on the number of steps. -/
theorem runEndsInTheStateThatRaised : Obligations.RunEndsInTheStateThatRaised := by
  intro k
  induction k with
  | zero => intro s u e h; cases h
  | succ k ih =>
    intro s u e h
    unfold runFrom at h
    split at h
    next t _ => exact ih t u e h
    next hfault => cases h; exact hfault
    · cases h

end Sys2Proof.Machine
end
